-- ==== Sys2Proof/Word.lean ====
section
/-! DEFINITION. The word types of the block: bytes, 64-bit lanes and the 25-lane array (00_scope.md R7, 10_state.md R15). -/

namespace Sys2Proof

/-- One byte of the state byte space (20_memory.md R31). -/
abbrev Byte := BitVec 8

/-- One 64-bit lane, unsigned, bit 0 the least significant (00_scope.md R7); also `din`, `rdata` and STATUS. -/
abbrev Word := BitVec 64

/-- A 5 by 5 array of lanes, held in lane-index order i = x + 5y (10_state.md R15, R16). -/
abbrev Lanes := Vector Word 25

/-- A 200-byte buffer in the canonical layout (20_memory.md R35): no other length can be written down. -/
abbrev Bytes := Vector Byte 200

end Sys2Proof
end

