-- ==== Sys2Proof/Syntax.lean ====
section
/-! DEFINITION. The commands of the block, one constructor per row of spec/opcode_table.json, the error codes, and what the
host can do to the block. -/

namespace Sys2Proof

/-- The commands (30_encoding.md R48). Operand fields keep the widths of R49 and R50; `WellFormed.lean` bounds them. The
64-bit operand of LANE.WR is `din`, which arrives beside the command word (R47) and stands in the state. -/
inductive Instr where
  | laneWr (x y : BitVec 3)         -- LANE.WR, R62
  | laneRd (x y : BitVec 3)         -- LANE.RD, R63
  | byteWr (ofs data8 : BitVec 8)   -- BYTE.WR, R64
  | byteRd (ofs : BitVec 8)         -- BYTE.RD, R65
  | permFull                        -- PERM.FULL, R85
  | permHalf                        -- PERM.HALF, R86
  | statusRd                        -- STATUS.RD, R90
  deriving DecidableEq, Repr

/-- The two modes, and no others (00_scope.md R3). -/
inductive Mode where
  | full   -- rounds 0 to 23
  | half   -- rounds 12 to 23
  deriving DecidableEq, Repr, Inhabited

/-- The causes of a rejection (60_exceptions.md R94). -/
inductive ErrCode where
  | illegalOpcode   -- code 1
  | reservedBits    -- code 2
  | laneRange       -- code 3
  | byteRange       -- code 4
  | busyHazard      -- code 5
  deriving DecidableEq, Repr

/-- One command transaction: the command word and its data operand (30_encoding.md R47). -/
structure Command where
  word : BitVec 32
  din  : Word
  deriving DecidableEq, Repr

/-- What the outside world does in one slot. -/
inductive HostEvent where
  /-- The host issues a command (30_encoding.md R47). -/
  | issue (c : Command)
  /-- The host issues nothing: the slot is the sequencer's, if it is enabled (00_scope.md R13). -/
  | quiet
  /-- `rst` is asserted (70_reset_and_hazards.md R107). A command presented in the same slot loses to it (R108). -/
  | reset (lost : Option Command)
  /-- Power is removed and comes back (60_exceptions.md R106). -/
  | powerLoss
  deriving DecidableEq, Repr

end Sys2Proof
end

