-- ==== Sys2Proof/Config.lean ====
section
/-! DEFINITION. What an implementation fixes and the spec leaves open: named parameters and free values, none with a body.
A duration that the spec bounds below by one clock has type ℕ+ (DEDUCED, safe: log entry 13). -/

namespace Sys2Proof

/-- LAT_FULL, the time from acceptance of PERM.FULL to BUSY = 0 (70_reset_and_hazards.md R117). No rule of the model reads it. -/
opaque Config.latFull : ℕ+

/-- LAT_HALF, the time from acceptance of PERM.HALF to BUSY = 0 (70_reset_and_hazards.md R117). No rule of the model reads it. -/
opaque Config.latHalf : ℕ+

/-- RST_CYCLES, the minimum reset duration (70_reset_and_hazards.md R107). No rule of the model reads it. -/
opaque Config.rstCycles : ℕ+

/-- CMD_PORT_BASE, the command port's place in a system's address map (60_exceptions.md R103). No rule of the model reads it. -/
opaque Config.cmdPortBase : Nat

/-- The registers' content at power-up, every one unspecified (70_reset_and_hazards.md R110). -/
structure PowerUp where
  lanes    : Lanes
  busy     : Bool
  done     : Bool
  lastMode : Bool
  err      : Bool
  errcode  : BitVec 3
  ridx     : Fin 24
  mode     : Mode
  deriving Inhabited

/-- FREE VALUE: what the registers of a block hold after its n-th loss of power (60_exceptions.md R106). DESIGN CHOICE: safe
for one block; unsafe for several (R104), since it depends on the loss count alone and on no block: log entry 10. -/
opaque Config.powerUp : Nat → PowerUp

end Sys2Proof
end

