-- ==== Sys2Proof/Machine/State.lean ====
section
/-! DEFINITION. The state of one block, its reset value, and the reasons a step can stop. -/

namespace Sys2Proof.Machine

/-- What the response port shows of the latest command (30_encoding.md R47). -/
inductive Response where
  /-- The latest command answers with no response, or none has been issued since reset. -/
  | silent
  /-- `respond(v)`: the 64-bit response to an accepted read command (00_scope.md R10, 30_encoding.md R54). -/
  | data (v : Word)
  /-- The latest command was a rejected read: `rdata` reads 0 in hardware (60_exceptions.md R95), and it is no response in
  the spec's model (R96). -/
  | rejectedRead
  deriving DecidableEq, Repr

/-- One block. The first ten fields are the record of 10_state.md R27; `din` and `resp` are the data ports of
30_encoding.md R47; `host` and `losses` are the model's own. -/
structure State where
  /-- S, the 25 lanes in lane-index order (R15); while BUSY = 1 the standard intermediate state (R26; DEDUCED, safe: log entry
  7). -/
  lanes     : Lanes
  /-- BUSY (R20). -/
  busy      : Bool
  /-- DONE (R21). -/
  done      : Bool
  /-- LAST_MODE, false for full and true for half (R22). -/
  lastMode  : Bool
  /-- ERR (R23). -/
  err       : Bool
  /-- ERRCODE (R24). -/
  errcode   : BitVec 3
  /-- RIDX, the absolute index of the next round (R25); it keeps its last value while BUSY = 0 (DEDUCED, unsafe: log entry 3). -/
  ridx      : Fin 24
  /-- MODE of the running permutation (R25); it keeps its last value while BUSY = 0 (DEDUCED, unsafe: log entry 3). -/
  mode      : Mode
  /-- The first rejection's code, never cleared, not even by reset (60_exceptions.md R96). -/
  fault     : Option ErrCode
  /-- Whether the block has been reset since power-up (70_reset_and_hazards.md R110). -/
  resetSeen : Bool
  /-- The data operand that came with the latest command word (R47). DESIGN CHOICE, unsafe: log entry 5. -/
  din       : Word
  /-- The response port (R47). DESIGN CHOICE, unsafe: log entry 6. -/
  resp      : Response
  /-- MODEL'S OWN: what the host does from here on, one event a slot, the next one first. DESIGN CHOICE, safe: log entry
  4. -/
  host      : List HostEvent
  /-- MODEL'S OWN: how often power has been lost, the argument of the free value `Config.powerUp`. DESIGN CHOICE, unsafe
  for blocks of one system with equal counts: log entry 10. -/
  losses    : Nat
  deriving DecidableEq, Repr

/-- The two forms that the spec gives what follows a rejection. -/
inductive View where
  /-- The hardware's: the block goes on with the next command (60_exceptions.md R95). -/
  | hardware
  /-- The spec's model's: the run stops there (60_exceptions.md R96). The machine's `step` is this one. -/
  | model
  deriving DecidableEq, Repr

/-- Why a run ends. -/
inductive Fault where
  /-- Raised by `step` in a state that records a rejected command, unless a reset comes next: the run of the spec's model stopped
  there (60_exceptions.md R96). No meaning raises it. SAFE: it allows less than the hardware does (R95). -/
  | rejected (e : ErrCode)
  deriving DecidableEq, Repr

/-- Why a step has no meaning. -/
inductive Refusal where
  /-- An instruction with no meaning yet: raised by no arm of this model. SAFE. -/
  | notModelled (mnemonic : String)
  /-- Raised by `runCommand` and `rejectWord`: a command before the first reset has no meaning (70_reset_and_hazards.md R110).
  SAFE: nothing can be proved of a block used without reset. -/
  | beforeReset
  /-- Raised by `System.drive`: a second host drives a command port that is not its own (60_exceptions.md R104). SAFE. -/
  | sharedPort
  /-- Raised by `System.drive` and `System.step`: no block has that number. SAFE. -/
  | noSuchBlock
  deriving DecidableEq, Repr

/-- The block right after reset (10_state.md R30). RIDX and MODE are unspecified there; 0 and full are this model's (DESIGN
CHOICE, unsafe: log entry 2), and so are the ports (DESIGN CHOICE, unsafe: log entries 5 and 6). No host event is pending: a
program is loaded from outside (DESIGN CHOICE, safe: log entry 4). -/
def State.reset : State where
  lanes     := Vector.replicate 25 0
  busy      := false
  done      := false
  lastMode  := false
  err       := false
  errcode   := 0
  ridx      := 0
  mode      := .full
  fault     := none
  resetSeen := true
  din       := 0
  resp      := .silent
  host      := []
  losses    := 0

end Sys2Proof.Machine
end

