-- ==== Sys2Proof/Machine/Flags.lean ====
section
/-! DEFINITION. The status word (10_state.md R19) and the codes its error field holds (60_exceptions.md R94). The block has no
other flag (R28). -/

namespace Sys2Proof.Machine

/-- The value of an error in ERRCODE (60_exceptions.md R94). -/
def errorCode : ErrCode → BitVec 3
  | .illegalOpcode => 1
  | .reservedBits => 2
  | .laneRange => 3
  | .byteRange => 4
  | .busyHazard => 5

/-- STATUS: `zext_64(ERRCODE ++ ERR ++ 0b00000 ++ LAST_MODE ++ DONE ++ BUSY)` (42_sequencer.md R90, 10_state.md R19). -/
def statusWord (busy done lastMode err : Bool) (errcode : BitVec 3) : Word :=
  (errcode ++ BitVec.ofBool err ++ 0#5 ++ BitVec.ofBool lastMode ++ BitVec.ofBool done ++ BitVec.ofBool busy).setWidth 64

/-- The status word of a state. -/
def State.status (s : State) : Word := statusWord s.busy s.done s.lastMode s.err s.errcode

/-- LAST_MODE's value for a mode: 0 for full, 1 for half (10_state.md R22). -/
def modeBit : Mode → Bool
  | .full => false
  | .half => true

/-- The first round of a mode: 0 for full, 12 for half (00_scope.md R3). -/
def firstRound : Mode → Fin 24
  | .full => 0
  | .half => 12

end Sys2Proof.Machine
end

