-- ==== Sys2Proof/Machine/Lanes.lean ====
section
/-! DEFINITION. Reading and writing the lane array by coordinate and by byte: the codec mapping of 20_memory.md R32 to R35. -/

namespace Sys2Proof.Machine

/-- Lane index i = x + 5y (00_scope.md R9). -/
def laneIndex (x y : Fin 5) : Fin 25 := ⟨x.val + 5 * y.val, by omega⟩

/-- `A[x,y]`. -/
def laneAt (A : Lanes) (x y : Fin 5) : Word := A.get (laneIndex x y)

/-- `A[x,y] <- v`, every other lane unchanged. -/
def setLane (A : Lanes) (x y : Fin 5) (v : Word) : Lanes := A.set (laneIndex x y).val v (laneIndex x y).isLt

/-- A fresh array `A'` given lane by lane (00_scope.md R10): the step that fills it reads its input array only. -/
def ofLanes (f : Fin 5 → Fin 5 → Word) : Lanes :=
  #v[f 0 0, f 1 0, f 2 0, f 3 0, f 4 0,
     f 0 1, f 1 1, f 2 1, f 3 1, f 4 1,
     f 0 2, f 1 2, f 2 2, f 3 2, f 4 2,
     f 0 3, f 1 3, f 2 3, f 3 3, f 4 3,
     f 0 4, f 1 4, f 2 4, f 3 4, f 4 4]

/-- The x coordinate of the lane that holds state byte k: (k div 8) mod 5 (R32). -/
def byteX (k : Fin 200) : Fin 5 := ⟨k.val / 8 % 5, by omega⟩

/-- The y coordinate of the lane that holds state byte k: (k div 8) div 5 (R32). -/
def byteY (k : Fin 200) : Fin 5 := ⟨k.val / 8 / 5, by omega⟩

/-- The place of state byte k's lowest bit in its lane: 8 (k mod 8) (R32). -/
def byteShift (k : Fin 200) : Nat := 8 * (k.val % 8)

/-- The offset of byte j of lane (x, y): 8(x + 5y) + j (R33). -/
def byteOffset (x y : Fin 5) (j : Fin 8) : Fin 200 := ⟨8 * (x.val + 5 * y.val) + j.val, by omega⟩

/-- MemRead(k, 1) (R32). -/
def readByte (A : Lanes) (k : Fin 200) : Byte := (laneAt A (byteX k) (byteY k)).extractLsb' (byteShift k) 8

/-- MemWrite(k, 1, v): the other 56 bits of the lane, and all other lanes, unchanged (R32, in the form of 40_codec.md R64). -/
def writeByte (A : Lanes) (k : Fin 200) (v : Byte) : Lanes :=
  setLane A (byteX k) (byteY k)
    ((laneAt A (byteX k) (byteY k) &&& ~~~((0xFF : Word) <<< byteShift k)) ||| (v.setWidth 64 <<< byteShift k))

/-- Dec (R35): each lane from its eight bytes, the least significant at the lowest offset. -/
def decodeBytes (b : Bytes) : Lanes :=
  ofLanes fun x y =>
    b.get (byteOffset x y 7) ++ b.get (byteOffset x y 6) ++ b.get (byteOffset x y 5) ++ b.get (byteOffset x y 4) ++
    b.get (byteOffset x y 3) ++ b.get (byteOffset x y 2) ++ b.get (byteOffset x y 1) ++ b.get (byteOffset x y 0)

/-- Enc (R35). -/
def encodeBytes (A : Lanes) : Bytes := Vector.ofFn (readByte A)

/-- What a state byte that no cell lists holds: the reset content of S (10_state.md R30). -/
def unlistedByte : Byte := 0

/-- The state byte space as a list of (address, byte) cells, rising, without the bytes that hold `unlistedByte`: a VIEW of
the lanes, which are the storage (20_memory.md R31). DESIGN CHOICE, safe: log entry 8. -/
def cells (A : Lanes) : List Host.Cell :=
  (List.finRange 200).filterMap fun k => if readByte A k = unlistedByte then none else some (k.val, readByte A k)

/-- The canonical form of such a list: addresses strictly rising and inside the space, no entry equal to `unlistedByte`. -/
abbrev Memory.wf (m : List Host.Cell) : Prop :=
  (m.map Prod.fst).Pairwise (· < ·) ∧ ∀ c ∈ m, c.1 < 200 ∧ c.2 ≠ unlistedByte

end Sys2Proof.Machine
end

