-- ==== Sys2Proof/WellFormed.lean ====
section
/-! DEFINITION. Which commands are well formed: the operand ranges of 30_encoding.md R49, R50 and R58. -/

namespace Sys2Proof

/-- A lane coordinate field names a lane: 0..4 (R58). -/
def coordOk (f : BitVec 3) : Bool := decide (f.toNat ≤ 4)

/-- A byte offset field names a state byte: 0..199 (R58). -/
def offsetOk (f : BitVec 8) : Bool := decide (f.toNat ≤ 199)

/-- Every operand field of the command is in its range. -/
def Instr.wellFormed : Instr → Bool
  | .laneWr x y => coordOk x && coordOk y
  | .laneRd x y => coordOk x && coordOk y
  | .byteWr ofs _ => offsetOk ofs
  | .byteRd ofs => offsetOk ofs
  | .permFull => true
  | .permHalf => true
  | .statusRd => true

end Sys2Proof
end

