-- ==== Sys2Proof/Decode.lean ====
section
/-! DEFINITION. The decoder (30_encoding.md R48 to R58), total on every 32-bit word, and the encoder written from the same
format tables (R49 to R52). -/

namespace Sys2Proof

/-- The field `w[lo + len - 1 : lo]` (00_scope.md R7). -/
def field (w : BitVec 32) (lo len : Nat) : BitVec len := w.extractLsb' lo len

/-- OPC = cmd[31:24] (R48). -/
def opcode (w : BitVec 32) : BitVec 8 := field w 24 8

/-- Format L (R49): reserved bits first, then the coordinates' range (R55). -/
def decodeLane (mk : BitVec 3 → BitVec 3 → Instr) (w : BitVec 32) : Except ErrCode Instr :=
  if field w 15 9 ≠ 0 ∨ field w 11 1 ≠ 0 ∨ field w 0 8 ≠ 0 then .error .reservedBits
  else if ¬ coordOk (field w 8 3) ∨ ¬ coordOk (field w 12 3) then .error .laneRange
  else .ok (mk (field w 8 3) (field w 12 3))

/-- Format B with a data byte (R50), BYTE.WR. -/
def decodeByteWr (w : BitVec 32) : Except ErrCode Instr :=
  if field w 16 8 ≠ 0 then .error .reservedBits
  else if ¬ offsetOk (field w 8 8) then .error .byteRange
  else .ok (.byteWr (field w 8 8) (field w 0 8))

/-- Format B with DATA8 reserved (R50), BYTE.RD. -/
def decodeByteRd (w : BitVec 32) : Except ErrCode Instr :=
  if field w 16 8 ≠ 0 ∨ field w 0 8 ≠ 0 then .error .reservedBits
  else if ¬ offsetOk (field w 8 8) then .error .byteRange
  else .ok (.byteRd (field w 8 8))

/-- Format P (R51). -/
def decodePerm (w : BitVec 32) : Except ErrCode Instr :=
  if field w 1 23 ≠ 0 then .error .reservedBits
  else if field w 0 1 = 0 then .ok .permFull
  else .ok .permHalf

/-- Format C (R52). -/
def decodeStatus (w : BitVec 32) : Except ErrCode Instr :=
  if field w 0 24 ≠ 0 then .error .reservedBits
  else .ok .statusRd

/-- Every word is a command or exactly one error, by the ordered checks of R55. -/
def decode (w : BitVec 32) : Except ErrCode Instr :=
  if opcode w = 0x01 then decodeLane .laneWr w
  else if opcode w = 0x02 then decodeLane .laneRd w
  else if opcode w = 0x03 then decodeByteWr w
  else if opcode w = 0x04 then decodeByteRd w
  else if opcode w = 0x10 then decodePerm w
  else if opcode w = 0x20 then decodeStatus w
  else .error .illegalOpcode

/-- `OOOOOOOO 000000000 YYY 0 XXX 00000000`, bit 31 on the left (R49). -/
def encodeLane (opc : BitVec 8) (x y : BitVec 3) : BitVec 32 := opc ++ 0#9 ++ y ++ 0#1 ++ x ++ 0#8

/-- `OOOOOOOO 00000000 OFS DATA8` (R50). -/
def encodeByte (opc ofs data8 : BitVec 8) : BitVec 32 := opc ++ 0#8 ++ ofs ++ data8

/-- The command word of a command (R49 to R52, R60). -/
def encode : Instr → BitVec 32
  | .laneWr x y => encodeLane 0x01 x y
  | .laneRd x y => encodeLane 0x02 x y
  | .byteWr ofs data8 => encodeByte 0x03 ofs data8
  | .byteRd ofs => encodeByte 0x04 ofs 0
  | .permFull => 0x10#8 ++ 0#23 ++ 0#1
  | .permHalf => 0x10#8 ++ 0#23 ++ 1#1
  | .statusRd => 0x20#8 ++ 0#24

/-- A word whose opcode is that of a read command (R47): if it is rejected, `rdata` reads 0 (60_exceptions.md R95).
DEDUCED, unsafe: log entry 11. -/
def isReadOpcode (w : BitVec 32) : Bool := opcode w = 0x02 || opcode w = 0x04 || opcode w = 0x20

/-- The command word whose bits are `w`, numbered as the opcode table numbers them. Bits above `nbits` are 0; a command is
one 32-bit word (R59), presented whole on the command port, so it has no byte order (20_memory.md R45). DESIGN CHOICE, safe:
log entry 19. -/
def tableWord (nbits w : Nat) : BitVec 32 := BitVec.ofNat 32 (w % 2 ^ nbits)

/-- What the decoder reads from an opcode-table word. -/
def decodeTableWord (nbits w : Nat) : Option Instr :=
  match decode (tableWord nbits w) with
  | .ok i => some i
  | .error _ => none

end Sys2Proof
end

