-- ==== Sys2Proof/Machine/Operands.lean ====
section
/-! DEFINITION. Operand assembly (30_encoding.md R53): every field unsigned, and outside its range an error (R58). -/

namespace Sys2Proof.Machine

/-- A coordinate field in range, as a coordinate. -/
def coordinate (f : BitVec 3) : Option (Fin 5) :=
  if h : f.toNat < 5 then some ⟨f.toNat, h⟩ else none

/-- The lane a format L command names, or LANE_RANGE (R58). -/
def laneOperand (x y : BitVec 3) : Except ErrCode (Fin 5 × Fin 5) :=
  match coordinate x, coordinate y with
  | some a, some b => .ok (a, b)
  | _, _ => .error .laneRange

/-- The state byte a format B command names, or BYTE_RANGE (R58). -/
def byteOperand (ofs : BitVec 8) : Except ErrCode (Fin 200) :=
  if h : ofs.toNat < 200 then .ok ⟨ofs.toNat, h⟩ else .error .byteRange

end Sys2Proof.Machine
end

