-- ==== Sys2Proof/Machine/Ops.lean ====
section
/-! DEFINITION. The named operations on the state: answering, rejecting, running a command past the checks common to all
commands, reset and loss of power. -/

namespace Sys2Proof.Machine

/-- One step's outcome on this machine. -/
abbrev Result := Host.Outcome State Fault Refusal

/-- The response port takes the answer to the current command (30_encoding.md R47). -/
def State.answer (s : State) (r : Response) : State := { s with resp := r }

/-- S takes a new value. -/
def State.withLanes (s : State) (A : Lanes) : State := { s with lanes := A }

/-- The host's remaining events. -/
def State.withHost (s : State) (es : List HostEvent) : State := { s with host := es }

/-- The operand that comes with a command word stands on the data port (30_encoding.md R47). -/
def State.withDin (s : State) (d : Word) : State := { s with din := d }

/-- A PERM command's effect at acceptance (42_sequencer.md R85, R86): BUSY, DONE, LAST_MODE, MODE and RIDX. -/
def State.startPerm (s : State) (m : Mode) : State :=
  { s with busy := true, done := false, lastMode := modeBit m, mode := m, ridx := firstRound m }

/-- What a rejection records: ERR and ERRCODE if ERR = 0 (60_exceptions.md R95), and the model's fault if none is recorded
(R96). -/
def State.recordError (s : State) (e : ErrCode) : State :=
  { s with err := true, errcode := if s.err then s.errcode else errorCode e, fault := s.fault <|> some e }

/-- REJECTION, the block's one error action (60_exceptions.md R95, R96): nothing of the command's effect, the error recorded,
`rdata` 0 for a rejected read. There is no trap entry and no return (R99). The rejecting step answers a next state; whether the run
then stops is the view's matter (`stepIn`). DESIGN CHOICE, safe: log entry 1. -/
def State.reject (s : State) (isRead : Bool) (e : ErrCode) : State :=
  (s.recordError e).answer (if isRead then .rejectedRead else .silent)

/-- What the checks common to all commands ask of a command. -/
inductive CommandClass where
  | codecWrite   -- LANE.WR, BYTE.WR
  | codecRead    -- LANE.RD, BYTE.RD
  | perm         -- PERM.FULL, PERM.HALF
  | status       -- STATUS.RD
  deriving DecidableEq, Repr

/-- Read commands answer with a response (30_encoding.md R47). -/
def CommandClass.isRead : CommandClass → Bool
  | .codecWrite => false
  | .codecRead => true
  | .perm => false
  | .status => true

/-- STATUS.RD is the one command accepted while BUSY = 1 (42_sequencer.md R90). -/
def CommandClass.runsWhileBusy : CommandClass → Bool
  | .codecWrite => false
  | .codecRead => false
  | .perm => false
  | .status => true

/-- `execute(c)` (70_reset_and_hazards.md R113) with the checks before it: no command has a meaning before the first reset
(R110); a range error comes before the busy hazard (60_exceptions.md R97); then the command's own effect. That a meaning checks its operands'
range again after the decoder is DEDUCED, safe: log entry 12. -/
def runCommand {α : Type} (s : State) (c : CommandClass) (operand : Except ErrCode α) (perform : α → State) : Result :=
  if s.resetSeen = false then .refused .beforeReset
  else
    match operand with
    | .error e => .next (s.reject c.isRead e)
    | .ok a => if s.busy ∧ c.runsWhileBusy = false then .next (s.reject c.isRead .busyHazard) else .next (perform a)

/-- A word that decodes to an error is rejected (30_encoding.md R55), once the block has been reset (R110). -/
def rejectWord (w : BitVec 32) (e : ErrCode) (s : State) : Result :=
  if s.resetSeen = false then .refused .beforeReset else .next (s.reject (isReadOpcode w) e)

/-- The Reset transition (70_reset_and_hazards.md R108): every register at its reset value, the fault record kept; the host's
further events and the free-value counter are no registers of the block. RIDX, MODE and the ports take the values of log entries
2, 5 and 6 (DESIGN CHOICE, unsafe). -/
def State.applyReset (s : State) : State :=
  { State.reset with fault := s.fault, host := s.host, losses := s.losses }

/-- Loss of power and power-up (60_exceptions.md R106): every register's content is lost and unspecified, and the block must be
reset before use (70_reset_and_hazards.md R110). DESIGN CHOICE: log entry 10; unsafe in the fault record it keeps,
and in that two blocks of a system with equal loss counts come up with equal content (R104 and R110 leave it open). -/
def State.applyPowerLoss (s : State) : State :=
  { s with
    lanes := (Config.powerUp s.losses).lanes
    busy := (Config.powerUp s.losses).busy
    done := (Config.powerUp s.losses).done
    lastMode := (Config.powerUp s.losses).lastMode
    err := (Config.powerUp s.losses).err
    errcode := (Config.powerUp s.losses).errcode
    ridx := (Config.powerUp s.losses).ridx
    mode := (Config.powerUp s.losses).mode
    resetSeen := false
    resp := .silent
    losses := s.losses + 1 }

/-- The hardware's `rdata` for the latest command: its response, and 0 for a rejected read (30_encoding.md R47, R95). A command
with no response puts nothing there. -/
def State.rdata (s : State) : Option Word :=
  match s.resp with
  | .silent => none
  | .data v => some v
  | .rejectedRead => some 0

/-- The spec's model of the response: none for a rejected command (60_exceptions.md R96). -/
def State.response (s : State) : Option Word :=
  match s.resp with
  | .silent => none
  | .data v => some v
  | .rejectedRead => none

/-- The byte at an address of the state byte space; addresses from 200 up do not exist (20_memory.md R31). -/
def State.byteAt (s : State) (a : Nat) : Option Byte :=
  if h : a < 200 then some (readByte s.lanes ⟨a, h⟩) else none

end Sys2Proof.Machine
end

