-- ==== Sys2Proof/Machine/Codec.lean ====
section
/-! DEFINITION. The state codec commands: LANE.WR, LANE.RD, BYTE.WR, BYTE.RD (40_codec.md). -/

namespace Sys2Proof.Machine

/-- LANE.WR: `S[x,y] <- v`, v = din, no response (40_codec.md R62). -/
def execLaneWr (x y : BitVec 3) (s : State) : Result :=
  runCommand s .codecWrite (laneOperand x y) fun p => (s.withLanes (setLane s.lanes p.1 p.2 s.din)).answer .silent

/-- LANE.RD: `respond(S[x,y])` (40_codec.md R63). -/
def execLaneRd (x y : BitVec 3) (s : State) : Result :=
  runCommand s .codecRead (laneOperand x y) fun p => s.answer (.data (laneAt s.lanes p.1 p.2))

/-- BYTE.WR: `MemWrite(ofs, 1, data8)`, no response (40_codec.md R64). -/
def execByteWr (ofs data8 : BitVec 8) (s : State) : Result :=
  runCommand s .codecWrite (byteOperand ofs) fun k => (s.withLanes (writeByte s.lanes k data8)).answer .silent

/-- BYTE.RD: `respond(zext_64(MemRead(ofs, 1)))` (40_codec.md R65). -/
def execByteRd (ofs : BitVec 8) (s : State) : Result :=
  runCommand s .codecRead (byteOperand ofs) fun k => s.answer (.data ((readByte s.lanes k).setWidth 64))

end Sys2Proof.Machine
end

