-- ==== Sys2Proof/Machine/Round.lean ====
section
/-! DEFINITION. The round function: theta, rho, pi, chi and iota, and their tables (41_round.md R68 to R79). -/

namespace Sys2Proof.Machine

/-- ROL64 (00_scope.md R8). -/
def rol64 (v : Word) (n : Nat) : Word := if n = 0 then v else (v <<< n) ||| (v >>> (64 - n))

/-- The rho offsets in lane-index order, one row of R68 a line. -/
def rotTable : Vector Nat 25 :=
  #v[ 0,  1, 62, 28, 27,
     36, 44,  6, 55, 20,
      3, 10, 43, 25, 39,
     41, 45, 15, 21,  8,
     18,  2, 61, 56, 14]

/-- ROT[x,y] (R68). -/
def rot (x y : Fin 5) : Nat := rotTable.get (laneIndex x y)

/-- The table of R69 as the spec lays it out: row i holds RC[i], the first half of the schedule, and RC[i + 12], the half that
the last twelve rounds use. -/
def rcRows : Vector (Word × Word) 12 :=
  #v[(0x1, 0x8000808B),
     (0x8082, 0x800000000000008B),
     (0x800000000000808A, 0x8000000000008089),
     (0x8000000080008000, 0x8000000000008003),
     (0x808B, 0x8000000000008002),
     (0x80000001, 0x8000000000000080),
     (0x8000000080008081, 0x800A),
     (0x8000000000008009, 0x800000008000000A),
     (0x8A, 0x8000000080008081),
     (0x88, 0x8000000000008080),
     (0x80008009, 0x80000001),
     (0x8000000A, 0x8000000080008008)]

/-- RC[i] (R69). -/
def rc (i : Fin 24) : Word :=
  if h : i.val < 12 then (rcRows.get ⟨i.val, h⟩).1 else (rcRows.get ⟨i.val - 12, by omega⟩).2

/-- The parity of column x (R72). -/
def columnParity (A : Lanes) (x : Fin 5) : Word :=
  laneAt A x 0 ^^^ laneAt A x 1 ^^^ laneAt A x 2 ^^^ laneAt A x 3 ^^^ laneAt A x 4

/-- Theta's diffusion term for column x: the rotated neighbour is x + 1 (R72). -/
def thetaTerm (A : Lanes) (x : Fin 5) : Word := columnParity A (x - 1) ^^^ rol64 (columnParity A (x + 1)) 1

/-- Theta (R72). -/
def thetaStep (A : Lanes) : Lanes := ofLanes fun x y => laneAt A x y ^^^ thetaTerm A x

/-- Rho (R73). -/
def rhoStep (A : Lanes) : Lanes := ofLanes fun x y => rol64 (laneAt A x y) (rot x y)

/-- Pi: destination (x, y) takes source ((x + 3y) mod 5, x) (R74). -/
def piStep (A : Lanes) : Lanes := ofLanes fun x y => laneAt A (x + 3 * y) x

/-- Chi (R75). -/
def chiStep (A : Lanes) : Lanes :=
  ofLanes fun x y => laneAt A x y ^^^ (~~~(laneAt A (x + 1) y) &&& laneAt A (x + 2) y)

/-- Iota: lane (0,0) only (R76). -/
def iotaStep (A : Lanes) (i : Fin 24) : Lanes := setLane A 0 0 (laneAt A 0 0 ^^^ rc i)

/-- Round(A, i) (R77, R79). -/
def keccakRound (A : Lanes) (i : Fin 24) : Lanes := iotaStep (chiStep (piStep (rhoStep (thetaStep A)))) i

/-! The derivations of the two tables (41_round.md R70, R71): cross-checks, read by no step. -/

/-- One turn of the LFSR of R70, R[k] in bit k: R <- 0 ++ R, then R[8] folded into R[0], R[4], R[5] and R[6]. -/
def lfsrTurn (r : BitVec 8) : BitVec 8 := (r <<< 1) ^^^ (if r.getLsbD 7 then 0x71 else 0)

/-- The LFSR's register after n turns from 10000000, R[0] first (R70). -/
def lfsrState : Nat → BitVec 8
  | 0 => 1
  | n + 1 => lfsrTurn (lfsrState n)

/-- rc(t), bit R[0] after t mod 255 turns (R70). -/
def lfsrBit (t : Nat) : Bool := (lfsrState (t % 255)).getLsbD 0

/-- The round constant of R70: bit 2^j - 1 is rc(j + 7i), for j = 0..6, and every other bit 0. -/
def derivedRc (i : Nat) : Word :=
  (List.range 7).foldl (fun w j => if lfsrBit (j + 7 * i) then w ||| (1 <<< (2 ^ j - 1)) else w) 0

/-- The coordinates that R71 visits at time t: (1, 0), then (x, y) <- (y, 2x + 3y). -/
def rotWalk : Nat → Fin 5 × Fin 5
  | 0 => (1, 0)
  | t + 1 => ((rotWalk t).2, 2 * (rotWalk t).1 + 3 * (rotWalk t).2)

/-- The offset R71 gives the lane visited at time t. -/
def walkOffset (t : Nat) : Nat := (t + 1) * (t + 2) / 2 % 64

end Sys2Proof.Machine
end

