-- ==== Sys2Proof/Machine/Permutation.lean ====
section
/-! DEFINITION. The permutation functions (42_sequencer.md R83, R84) and the lane-complemented representation of them that an
implementation may use inside (41_round.md R81). -/

namespace Sys2Proof.Machine

/-- The absolute round indices 0..23 in order (R83). -/
def roundIndices : List (Fin 24) :=
  [0, 1, 2, 3, 4, 5, 6, 7, 8, 9, 10, 11, 12, 13, 14, 15, 16, 17, 18, 19, 20, 21, 22, 23]

/-- Rounds run in the order listed, each on the whole output of the one before (R83, 41_round.md R80). -/
def runRounds (A : Lanes) (is : List (Fin 24)) : Lanes := is.foldl keccakRound A

/-- Perm(A, f): rounds f..23 (R83). -/
def permFrom (A : Lanes) (f : Nat) : Lanes := runRounds A (roundIndices.drop f)

/-- Full(A) = Perm(A, 0) (R84). -/
def fullPerm (A : Lanes) : Lanes := permFrom A 0

/-- Half(A) = Perm(A, 12) (R84). -/
def halfPerm (A : Lanes) : Lanes := permFrom A 12

/-- The permutation of a mode (R84). -/
def modePerm : Mode → Lanes → Lanes
  | .full => fullPerm
  | .half => halfPerm

/-! Lane complementing (41_round.md R81), for an arbitrary set: no set is architectural (90_conflicts.md C2). The machine's own
step uses none of this (DESIGN CHOICE, safe: log entry 20). -/

/-- A set of lanes. -/
abbrev LaneSet := Fin 5 → Fin 5 → Bool

/-- A lane in the form in which it is held: complemented or plain. -/
def heldAs (flipped : Bool) (v : Word) : Word := if flipped then ~~~v else v

/-- Complement the lanes of a set, as at entry and at exit (R81). -/
def complementLanes (set : LaneSet) (A : Lanes) : Lanes := ofLanes fun x y => heldAs (set x y) (laneAt A x y)

/-- Whether a column's parity is complemented when the lanes of the set are: an odd number of them stand in it. -/
def columnFlips (set : LaneSet) (x : Fin 5) : Bool := set x 0 ^^ set x 1 ^^ set x 2 ^^ set x 3 ^^ set x 4

/-- The lanes that theta leaves complemented: the set's, toggled where one of the two parities of R72 is complemented. -/
def afterTheta (set : LaneSet) : LaneSet := fun x y => set x y ^^ (columnFlips set (x - 1) ^^ columnFlips set (x + 1))

/-- The lanes that stand complemented before chi: rho keeps each lane's form, and pi moves it with the lane (R74). -/
def beforeChi (set : LaneSet) : LaneSet := fun x y => afterTheta set (x + 3 * y) x

/-- Chi's `(~next) & nextnext` from the two lanes as held (R81's equivalent algebraic form): a complemented `next` needs no NOT. -/
def adaptedTerm (nextFlipped nextnextFlipped : Bool) (next nextnext : Word) : Word :=
  match nextFlipped, nextnextFlipped with
  | false, false => ~~~next &&& nextnext
  | true, false => next &&& nextnext
  | false, true => ~~~(next ||| nextnext)
  | true, true => next &&& ~~~nextnext

/-- Chi on lanes held complemented where `held` says so, its output complemented where `made` says so (R81). -/
def adaptedChi (held made : LaneSet) (A : Lanes) : Lanes :=
  ofLanes fun x y => heldAs (held x y ^^ made x y)
    (laneAt A x y ^^^ adaptedTerm (held (x + 1) y) (held (x + 2) y) (laneAt A (x + 1) y) (laneAt A (x + 2) y))

/-- A round on the complemented representation: theta, rho, pi and iota as they are, chi adapted so that the set is complemented
again after the round (R81). -/
def adaptedRound (set : LaneSet) (A : Lanes) (i : Fin 24) : Lanes :=
  iotaStep (adaptedChi (beforeChi set) set (piStep (rhoStep (thetaStep A)))) i

/-- Perm with the set complemented once before the round sequence and once after it (R81). -/
def complementedPerm (set : LaneSet) (A : Lanes) (f : Nat) : Lanes :=
  complementLanes set ((roundIndices.drop f).foldl (adaptedRound set) (complementLanes set A))

end Sys2Proof.Machine
end

