-- ==== Sys2Proof/Machine/Sequencer.lean ====
section
/-! DEFINITION. The permutation commands, the status command and the sequencer's step (42_sequencer.md). -/

namespace Sys2Proof.Machine

/-- PERM.FULL: start rounds 0..23 (42_sequencer.md R85). -/
def execPermFull (s : State) : Result :=
  runCommand s .perm (.ok ()) fun _ => (s.startPerm .full).answer .silent

/-- PERM.HALF: start rounds 12..23 (42_sequencer.md R86). -/
def execPermHalf (s : State) : Result :=
  runCommand s .perm (.ok ()) fun _ => (s.startPerm .half).answer .silent

/-- STATUS.RD: `respond(STATUS)`, also while BUSY = 1 (42_sequencer.md R90). -/
def execStatusRd (s : State) : Result :=
  runCommand s .status (.ok ()) fun _ => s.answer (.data s.status)

/-- Round 23 is done: BUSY cleared and DONE set, in the step that writes S (42_sequencer.md R88). -/
def State.finishPerm (s : State) : State := { s with busy := false, done := true }

/-- RIDX moves to the next round (42_sequencer.md R87). -/
def State.nextRound (s : State) : State := { s with ridx := s.ridx + 1 }

/-- The sequencer's one step, for a state with BUSY = 1 (42_sequencer.md R87). -/
def State.seqStep (s : State) : State :=
  if s.ridx = 23 then (s.withLanes (keccakRound s.lanes s.ridx)).finishPerm
  else (s.withLanes (keccakRound s.lanes s.ridx)).nextRound

/-- A slot in which the host issues nothing: the sequencer steps if it is enabled (42_sequencer.md R87), and an idle block holds
its state (60_exceptions.md R106). DESIGN CHOICE, safe: log entries 9 and 15. -/
def State.quietSlot (s : State) : State := if s.busy then s.seqStep else s

end Sys2Proof.Machine
end

