-- ==== Sys2Proof/Machine/Dispatch.lean ====
section
/-! DEFINITION. exec: one arm per command, each a direct call of its meaning. -/

namespace Sys2Proof.Machine

def exec (i : Instr) (s : State) : Host.Outcome State Fault Refusal :=
  match i with
  | .laneWr x y => Sys2Proof.Machine.execLaneWr x y s
  | .laneRd x y => Sys2Proof.Machine.execLaneRd x y s
  | .byteWr ofs data8 => Sys2Proof.Machine.execByteWr ofs data8 s
  | .byteRd ofs => Sys2Proof.Machine.execByteRd ofs s
  | .permFull => Sys2Proof.Machine.execPermFull s
  | .permHalf => Sys2Proof.Machine.execPermHalf s
  | .statusRd => Sys2Proof.Machine.execStatusRd s

end Sys2Proof.Machine
end

