-- ==== Sys2Proof/Machine/Port.lean ====
section
/-! DEFINITION. The command port: what one event of the host does to the block. -/

namespace Sys2Proof.Machine

/-- A command word with its operand arrives: it is decoded, and executed or rejected (30_encoding.md R47, R55). -/
def issueCommand (c : Command) (s : State) : Result :=
  match decode c.word with
  | .ok i => exec i (s.withDin c.din)
  | .error e => rejectWord c.word e (s.withDin c.din)

/-- One event of the host. A command that loses to a reset leaves no trace (70_reset_and_hazards.md R108; DEDUCED,
unsafe: log entry 14). -/
def hostEvent (e : HostEvent) (s : State) : Result :=
  match e with
  | .issue c => issueCommand c s
  | .quiet => .next s.quietSlot
  | .reset _ => .next s.applyReset
  | .powerLoss => .next s.applyPowerLoss

/-- One slot of the block: the host's next event, or the sequencer's slot when the host has none (00_scope.md R13). -/
def slot (s : State) : Result :=
  match s.host with
  | [] => .next s.quietSlot
  | e :: es => hostEvent e (s.withHost es)

/-- Whether the next event is a reset, the transition that is enabled in faulted states too (70_reset_and_hazards.md R107). -/
def resetNext (s : State) : Bool :=
  match s.host with
  | .reset _ :: _ => true
  | _ => false

/-- The rejection at which a run has stopped: in the model's view the one on record, with only a Reset transition left, which
keeps the record (60_exceptions.md R96, 70_reset_and_hazards.md R107, R108); in the hardware's view none (60_exceptions.md R95). -/
def stoppedBy (v : View) (s : State) : Option ErrCode :=
  match v with
  | .hardware => none
  | .model => if resetNext s then none else s.fault

/-- One step in a view of what follows a rejection. DESIGN CHOICE, safe: log entry 1. -/
def stepIn (v : View) (s : State) : Result :=
  match stoppedBy v s with
  | none => slot s
  | some e => .fault (.rejected e)

/-- The command that stands for an opcode-table word, its operand 0. -/
def tableCommand (nbits w : Nat) : Command := ⟨tableWord nbits w, 0⟩

end Sys2Proof.Machine
end

