-- ==== Sys2Proof/Machine/Step.lean ====
section
/-! DEFINITION. The machine's step, and how an instruction is placed where it comes next. -/

namespace Sys2Proof.Machine

/-- One step (00_scope.md R13), in the view of the spec's model: a rejected command is a fault, recorded by its own step, and the run
stops there (60_exceptions.md R96). The host's list of events is the interleaving of the two agents (DESIGN CHOICE, safe: log
entry 4); a command in the slot of a completion comes before it (DEDUCED, safe: log entry 18). -/
def step (s : State) : Host.Outcome State Fault Refusal := stepIn .model s

/-- The instruction, with operand 0, is the next thing the host issues: this stands for the host's load of its command stream
(10_state.md R17). DESIGN CHOICE, safe: log entries 4 and 19. -/
def State.withFetchWord (s : State) (nbits w : Nat) : State :=
  s.withHost (.issue (tableCommand nbits w) :: s.host)

end Sys2Proof.Machine
end

