-- ==== Sys2Proof/Machine/Assembler.lean ====
section
/-! DEFINITION. The host-side assembler: the lines of 30_encoding.md R60 and the pseudo-instructions of R61. The block never
sees them: they are command streams for `State.host`. -/

namespace Sys2Proof.Machine

/-- One assembler line (R60), its numbers as written. -/
inductive AsmLine where
  | laneWr (x y v : Nat)
  | laneRd (x y : Nat)
  | byteWr (ofs d : Nat)
  | byteRd (ofs : Nat)
  | permFull
  | permHalf
  | statusRd
  deriving DecidableEq, Repr

/-- The command a line encodes to; none where the assembler refuses an operand (R60). -/
def assemble : AsmLine → Option Command
  | .laneWr x y v =>
    if x ≤ 4 ∧ y ≤ 4 ∧ v < 2 ^ 64 then
      some ⟨encode (.laneWr (BitVec.ofNat 3 x) (BitVec.ofNat 3 y)), BitVec.ofNat 64 v⟩
    else none
  | .laneRd x y =>
    if x ≤ 4 ∧ y ≤ 4 then some ⟨encode (.laneRd (BitVec.ofNat 3 x) (BitVec.ofNat 3 y)), 0⟩ else none
  | .byteWr ofs d =>
    if ofs ≤ 199 ∧ d ≤ 255 then some ⟨encode (.byteWr (BitVec.ofNat 8 ofs) (BitVec.ofNat 8 d)), 0⟩ else none
  | .byteRd ofs => if ofs ≤ 199 then some ⟨encode (.byteRd (BitVec.ofNat 8 ofs)), 0⟩ else none
  | .permFull => some ⟨encode .permFull, 0⟩
  | .permHalf => some ⟨encode .permHalf, 0⟩
  | .statusRd => some ⟨encode .statusRd, 0⟩

/-- The pseudo-instructions (R61). A wait carries the number of polls that answer BUSY = 1 before the one that ends it: the
spec makes that number a draw (92_eei_decisions.md D25). DESIGN CHOICE, safe: log entry 21. -/
inductive Pseudo where
  | laneWri (i v : Nat)
  | stateLoad (b : Bytes)
  | stateStore
  | stateClear
  | permWait (busyPolls : Nat)
  | permFullSync (busyPolls : Nat)
  | permHalfSync (busyPolls : Nat)
  deriving DecidableEq, Repr

/-- `lane.wri I, V` (R61). -/
def laneWriLine (i v : Nat) : AsmLine := .laneWr (i % 5) (i / 5) v

/-- The lines of `perm.wait`: status.rd until BUSY reads 0 (R61). -/
def waitLines (busyPolls : Nat) : List AsmLine := List.replicate (busyPolls + 1) .statusRd

/-- The expansion of a pseudo-instruction (R61). -/
def expand : Pseudo → List AsmLine
  | .laneWri i v => [laneWriLine i v]
  | .stateLoad b => (List.finRange 25).map fun i => laneWriLine i.val ((decodeBytes b).get i).toNat
  | .stateStore => (List.finRange 25).map fun i => .laneRd (i.val % 5) (i.val / 5)
  | .stateClear => (List.finRange 25).map fun i => laneWriLine i.val 0
  | .permWait n => waitLines n
  | .permFullSync n => .permFull :: waitLines n
  | .permHalfSync n => .permHalf :: waitLines n

/-- What the host makes of the responses to `state.store`: the 25 lanes in order, assembled into bytes with Enc (R61); none if a
response is missing. -/
def storedBytes (responses : List (Option Word)) : Option Bytes :=
  match responses.mapM id with
  | none => none
  | some lanes => if h : lanes.length = 25 then some (encodeBytes ⟨lanes.toArray, by simp [h]⟩) else none

/-- What the host's wait loop looks at: BUSY = rdata[0] of a status answer (R61). -/
def pollSaysIdle : Response → Bool
  | .data v => v.getLsbD 0 = false
  | .silent => false
  | .rejectedRead => false

end Sys2Proof.Machine
end

