-- ==== Sys2Proof/Machine/System.lean ====
section
/-! DEFINITION. Any number of blocks side by side, each with one host (60_exceptions.md R104). -/

namespace Sys2Proof.Machine

/-- A block and the one host that owns its command port. Nothing marks a block but its place: two blocks with equal loss counts
have the same power-up content (DESIGN CHOICE, unsafe: log entry 10). -/
structure OwnedBlock where
  owner : Nat
  block : State
  deriving DecidableEq, Repr

/-- Blocks by number; they share no state (R104). -/
abbrev System := List OwnedBlock

/-- The outcome of one action on a system. -/
abbrev SystemResult := Host.Outcome System Fault Refusal

/-- Block k takes one step; the others are not touched (R104). -/
def System.step (sys : System) (k : Nat) : SystemResult :=
  match sys[k]? with
  | none => .refused .noSuchBlock
  | some b =>
    match Machine.step b.block with
    | .next t => .next (sys.set k { b with block := t })
    | .fault r => .fault r
    | .refused r => .refused r

/-- Host h hands block k a further event. Any arrangement but one host per block is refused (R104). The spec restricts only
the driving of the command port; that a reset or a loss of power, too, comes from the owner alone and is refused from anyone else is
the model's (DESIGN CHOICE, unsafe: log entry 16). -/
def System.drive (sys : System) (h k : Nat) (e : HostEvent) : SystemResult :=
  match sys[k]? with
  | none => .refused .noSuchBlock
  | some b =>
    if b.owner = h then .next (sys.set k { b with block := b.block.withHost (b.block.host ++ [e]) })
    else .refused .sharedPort

end Sys2Proof.Machine
end

