-- ==== Sys2Proof/Safety.lean ====
section
/-! DEFINITION. The spec's own rules about runs: when a run may go on after a rejection (60_exceptions.md R95, R96), when it may end
(00_scope.md R14), what a host observes, and the invariant. -/

namespace Sys2Proof.Safety

open Sys2Proof.Machine

/-- n steps in a view, stopping where a step does: in the model's view, what `Host.Core.run` does for this machine. -/
def runSteps (v : View) : Nat → State → Result
  | 0, s => .next s
  | n + 1, s =>
    match stepIn v s with
    | .next t => runSteps v n t
    | .fault r => .fault r
    | .refused r => .refused r

/-- What the block answers in each of the next n slots, in order (30_encoding.md R47); shorter if a step stops. -/
def responses (v : View) : Nat → State → List (Option Word)
  | 0, _ => []
  | n + 1, s =>
    match stepIn v s with
    | .next t => t.response :: responses v n t
    | .fault _ => []
    | .refused _ => []

/-- No command has been rejected so far: the premise of every claim about a command sequence (60_exceptions.md R96). -/
abbrev Unfaulted (s : State) : Prop := s.fault = none

/-- The run has not stopped: in the model's view no command has been rejected (60_exceptions.md R96), and in the hardware's a
rejection stops nothing (R95). -/
abbrev Going (v : View) (s : State) : Prop := v = .hardware ∨ Unfaulted s

/-- A run may end here: the host has nothing more to issue, nothing runs, and no command was rejected (00_scope.md R14). -/
abbrev Final (s : State) : Prop := s.host = [] ∧ s.busy = false ∧ Unfaulted s

/-- The runs that the spec's model admits and finishes: n steps with every command accepted. -/
def SafeRun (n : Nat) (s : State) : Prop := ∃ t, runSteps .model n s = .next t ∧ Unfaulted t

/-- What the host can see of a block: its status word and the response port (10_state.md R25, 30_encoding.md R47). -/
def observe (s : State) : Word × Response := (s.status, s.resp)

/-- The register contents that a run from reset can show, for a block that has been reset. Before the first reset nothing is
asked: every register is unspecified (70_reset_and_hazards.md R110). -/
abbrev Inv (s : State) : Prop :=
  s.resetSeen = true →
    (s.err = false ↔ s.errcode = 0) ∧           -- 10_state.md R24
    s.errcode.toNat ≤ 5 ∧                       -- 10_state.md R24: 6 and 7 are never written
    (s.err = true → s.fault ≠ none) ∧           -- 60_exceptions.md R96
    ¬ (s.busy = true ∧ s.done = true) ∧         -- 10_state.md R21
    (s.busy = true → s.lastMode = modeBit s.mode ∧ firstRound s.mode ≤ s.ridx)   -- 10_state.md R25, R84

/-- The same block with other content in the hidden registers. -/
def withHidden (s : State) (k : Fin 24) (m : Mode) : State := { s with ridx := k, mode := m }

/-- Two blocks that differ at most in RIDX and MODE, and in those only while nothing runs: their values then are unspecified
and nothing reads them (10_state.md R25). -/
abbrev HiddenEq (s s' : State) : Prop :=
  s = s' ∨ (s.busy = false ∧ ∃ k m, s' = withHidden s k m)

/-- The response port without the value it carries. -/
def eraseResponse : Response → Response
  | .silent => .silent
  | .data _ => .data 0
  | .rejectedRead => .rejectedRead

/-- What is left of a state without its data: no lane content, no operand, no response value. All control stays: the status
fields, RIDX, MODE, the records, the presence of a response, the host's commands (41_round.md R82). -/
def eraseData (s : State) : State :=
  { s with lanes := State.reset.lanes, din := 0, resp := eraseResponse s.resp }

/-- The outcomes of two steps agree: both answer a next state, related by `r`, or both stop for the same reason. -/
def Agree (r : State → State → Prop) : Result → Result → Prop
  | .next t, .next t' => r t t'
  | .fault e, .fault e' => e = e'
  | .refused e, .refused e' => e = e'
  | _, _ => False

/-- The command that starts a mode's permutation (30_encoding.md R51). -/
def permCommand : Mode → Instr
  | .full => .permFull
  | .half => .permHalf

/-- The number of rounds of a mode (00_scope.md R3). -/
def roundCount : Mode → Nat
  | .full => 24
  | .half => 12

/-- The number of slots the sequencer gets in a list of events. -/
def quietCount (es : List HostEvent) : Nat := es.countP (· = .quiet)

/-- The host issues commands or nothing: no reset and no loss of power. -/
def onlyCommands (es : List HostEvent) : Bool :=
  es.all fun e => match e with
    | .issue _ => true
    | .quiet => true
    | .reset _ => false
    | .powerLoss => false

/-- The host issues STATUS.RD or nothing: the one command that a busy block does not reject, and the software duty of
70_reset_and_hazards.md R114. -/
def onlyPolls (es : List HostEvent) : Bool :=
  es.all fun e => match e with
    | .issue c => decide (c.word = encode .statusRd)
    | .quiet => true
    | .reset _ => false
    | .powerLoss => false

/-- The code of the reason, if there is one, why the block rejects a command in this state (60_exceptions.md R97): decode errors
first, then the busy hazard. -/
def rejection (s : State) (c : Command) : Option ErrCode :=
  match decode c.word with
  | .error e => some e
  | .ok i => if s.busy ∧ i ≠ .statusRd then some .busyHazard else none

/-- The word, issued to a block with no rejection since reset, is rejected with the code, in both views: ERR and ERRCODE record it, S
keeps its value and there is no response (60_exceptions.md R95, R96). That the rejecting step answers a next state is DESIGN
CHOICE, safe: log entry 1. -/
def RejectedWith (w : BitVec 32) (code : BitVec 3) : Prop :=
  ∀ (v : View) (s : State) (din : Word) (es : List HostEvent), Going v s → s.resetSeen = true → s.err = false →
    s.host = .issue ⟨w, din⟩ :: es →
    ∃ t, stepIn v s = .next t ∧ t.lanes = s.lanes ∧ t.err = true ∧ t.errcode = code ∧ t.response = none

end Sys2Proof.Safety
end

