-- ==== Sys2Proof/Certificates/Slice0/Obligations.lean ====
section
/-! DEFINITION. The statements about the machine, each from the spec's numbered rules, for the provers. A statement with a view `v`
speaks of both forms of what follows a rejection: in the view `.model`, `stepIn v` is the machine's `step`. -/

open Sys2Proof Sys2Proof.Machine Sys2Proof.Safety

/-! ## Reset and the life of a block -/

/-- 10_state.md R30: what every piece of state holds after reset, where the spec gives a value. -/
def Obligations.ResetValues : Prop :=
  (∀ x y, laneAt State.reset.lanes x y = 0) ∧ State.reset.busy = false ∧ State.reset.done = false ∧
  State.reset.lastMode = false ∧ State.reset.err = false ∧ State.reset.errcode = 0 ∧ State.reset.fault = none ∧
  State.reset.resetSeen = true ∧ State.reset.status = 0

/-- 70_reset_and_hazards.md R108, R109: Reset from any state, running or faulted or never reset, with or without a command that
arrives in the same slot, and in both views: every lane and every status field 0, the fault record kept; and no further round is
performed. That a command in the same slot is lost without a trace is read from R108 by inference (log entry 14); that the idle
slot after the reset, which shows that no round follows, is a step is the model's choice (log entry 15). -/
def Obligations.ResetTransition : Prop :=
  ∀ (v : View) (s : State) (lost : Option Command) (es : List HostEvent), s.host = .reset lost :: es →
    ∃ t, stepIn v s = .next t ∧ (∀ x y, laneAt t.lanes x y = 0) ∧ t.busy = false ∧ t.done = false ∧ t.lastMode = false ∧
      t.err = false ∧ t.errcode = 0 ∧ t.resetSeen = true ∧ t.fault = s.fault ∧ t.host = es ∧
      ∀ es', Going v t → stepIn v (t.withHost (.quiet :: es')) = .next (t.withHost es')

/-- 70_reset_and_hazards.md R110: any command in a block that has not been reset is refused. -/
def Obligations.BeforeResetRefused : Prop :=
  ∀ (s : State), s.resetSeen = false →
    (∀ i, exec i s = .refused .beforeReset) ∧
    ∀ (v : View) (c : Command) (es : List HostEvent), Going v s → s.host = .issue c :: es → stepIn v s = .refused .beforeReset

/-- 00_scope.md R14: a block that has been reset stops only at a recorded rejection: with none on record, and in the hardware's view
in any case, every step answers a next state, whatever word arrives. The model's choices in it: the rejecting step itself answers a
next state (log entry 1), and an idle slot is a step (log entry 15). -/
def Obligations.StepNeverStopsAfterReset : Prop :=
  ∀ (v : View) (s : State), Going v s → s.resetSeen = true → ∃ t, stepIn v s = .next t

/-- 60_exceptions.md R106: after a loss of power every command is refused until a reset; the fault record is kept, which is the
model's choice (log entry 10). -/
def Obligations.PowerLossNeedsReset : Prop :=
  ∀ (v : View) (s : State) (es : List HostEvent), Going v s → s.host = .powerLoss :: es →
    ∃ t, stepIn v s = .next t ∧ t.resetSeen = false ∧ t.fault = s.fault ∧ t.host = es ∧
      ∀ c es', stepIn v (t.withHost (.issue c :: es')) = .refused .beforeReset

/-- 60_exceptions.md R106: an idle block holds S and STATUS in every slot in which the host issues nothing. That such a slot
is a step is the model's choice (log entry 15). -/
def Obligations.IdleHolds : Prop :=
  ∀ (v : View) (s : State), Going v s → s.busy = false →
    (s.host = [] → stepIn v s = .next s) ∧ ∀ es, s.host = .quiet :: es → stepIn v s = .next (s.withHost es)

/-! ## Decoding and encoding -/

/-- 30_encoding.md R49 to R52, R60: words written out from the formats decode to the commands they stand for. -/
def Obligations.DecodeWords : Prop :=
  decodeTableWord 32 0x01003100 = some (.laneWr 1 3) ∧ decodeTableWord 32 0x02004400 = some (.laneRd 4 4) ∧
  decodeTableWord 32 0x03008780 = some (.byteWr 135 0x80) ∧ decodeTableWord 32 0x04000800 = some (.byteRd 8) ∧
  decodeTableWord 32 0x10000000 = some .permFull ∧ decodeTableWord 32 0x10000001 = some .permHalf ∧
  decodeTableWord 32 0x20000000 = some .statusRd

/-- Decoding the word of a well-formed command gives the command back: no bit of an operand is lost (30_encoding.md R49 to
R53). -/
def Obligations.DecodeEncode : Prop :=
  ∀ i : Instr, i.wellFormed = true → decode (encode i) = .ok i

/-- A word that decodes to a command is that command's one word, and the command is well formed (30_encoding.md R55, R59). -/
def Obligations.EncodeDecode : Prop :=
  ∀ (w : BitVec 32) (i : Instr), decode w = .ok i → i.wellFormed = true ∧ encode i = w

/-- 30_encoding.md R56: exactly the words with an illegal opcode are rejected with ILLEGAL_OPCODE (code 1), whatever their other
bits; 250 of the 256 opcodes are illegal; 60_exceptions.md R95, 10_state.md R24: the code is recorded and S is unchanged. That the
rejecting step answers a next state is the model's choice (log entry 1). -/
def Obligations.IllegalOpcodeRejected : Prop :=
  (∀ w : BitVec 32, decode w = .error .illegalOpcode ↔ w >>> 24 ∉ [0x01#32, 0x02#32, 0x03#32, 0x04#32, 0x10#32, 0x20#32]) ∧
  ((List.range 256).filter fun o => decide (decode (BitVec.ofNat 32 o <<< 24) = .error .illegalOpcode)).length = 250 ∧
  ∀ w : BitVec 32, decode w = .error .illegalOpcode → RejectedWith w 1

/-- 30_encoding.md R57: exactly the words with a legal opcode and a reserved bit of its format set are rejected with
RESERVED_BITS (code 2); the reserved bits are given as a mask; 60_exceptions.md R95, 10_state.md R24: the code is recorded and S is
unchanged. That the rejecting step answers a next state is the model's choice (log entry 1). -/
def Obligations.ReservedBitsRejected : Prop :=
  (∀ w : BitVec 32, decode w = .error .reservedBits ↔
    ((w >>> 24 = 0x01 ∨ w >>> 24 = 0x02) ∧ w &&& 0x00FF88FF ≠ 0) ∨ (w >>> 24 = 0x03 ∧ w &&& 0x00FF0000 ≠ 0) ∨
    (w >>> 24 = 0x04 ∧ w &&& 0x00FF00FF ≠ 0) ∨ (w >>> 24 = 0x10 ∧ w &&& 0x00FFFFFE ≠ 0) ∨
    (w >>> 24 = 0x20 ∧ w &&& 0x00FFFFFF ≠ 0)) ∧
  ∀ w : BitVec 32, decode w = .error .reservedBits → RejectedWith w 2

/-- 30_encoding.md R58, with R55's order of checks: a format word with no reserved bit set and a field out of range is rejected,
with LANE_RANGE (code 3) in format L and BYTE_RANGE (code 4) in format B, and no other word is; 60_exceptions.md R95, 10_state.md
R24: the code is recorded and S is unchanged. That the rejecting step answers a next state is the model's choice (log
entry 1). -/
def Obligations.RangeRejected : Prop :=
  (∀ w : BitVec 32,
    (decode w = .error .laneRange ↔ (w >>> 24 = 0x01 ∨ w >>> 24 = 0x02) ∧ w &&& 0x00FF88FF = 0 ∧
      (4 < (w >>> 8 &&& 7) ∨ 4 < (w >>> 12 &&& 7))) ∧
    (decode w = .error .byteRange ↔ ((w >>> 24 = 0x03 ∧ w &&& 0x00FF0000 = 0) ∨ (w >>> 24 = 0x04 ∧ w &&& 0x00FF00FF = 0)) ∧
      199 < (w >>> 8 &&& 0xFF))) ∧
  ∀ w : BitVec 32, (decode w = .error .laneRange → RejectedWith w 3) ∧ (decode w = .error .byteRange → RejectedWith w 4)

/-- 30_encoding.md R60: what each assembler line encodes to, its operand beside it, and what the assembler refuses. -/
def Obligations.AssemblerEncodes : Prop :=
  (∀ x y v, assemble (.laneWr x y v) =
    if x ≤ 4 ∧ y ≤ 4 ∧ v < 2 ^ 64 then some ⟨BitVec.ofNat 32 (0x01000000 + y * 2 ^ 12 + x * 2 ^ 8), BitVec.ofNat 64 v⟩ else none) ∧
  (∀ x y, assemble (.laneRd x y) =
    if x ≤ 4 ∧ y ≤ 4 then some ⟨BitVec.ofNat 32 (0x02000000 + y * 2 ^ 12 + x * 2 ^ 8), 0⟩ else none) ∧
  (∀ ofs d, assemble (.byteWr ofs d) =
    if ofs ≤ 199 ∧ d ≤ 255 then some ⟨BitVec.ofNat 32 (0x03000000 + ofs * 2 ^ 8 + d), 0⟩ else none) ∧
  (∀ ofs, assemble (.byteRd ofs) = if ofs ≤ 199 then some ⟨BitVec.ofNat 32 (0x04000000 + ofs * 2 ^ 8), 0⟩ else none) ∧
  assemble .permFull = some ⟨0x10000000, 0⟩ ∧ assemble .permHalf = some ⟨0x10000001, 0⟩ ∧
  assemble .statusRd = some ⟨0x20000000, 0⟩

/-! ## A step -/

/-- 30_encoding.md R47, R55: when the host issues a word that decodes, in a run that has not stopped and in the hardware's view in
any case, the step is exec of that command, with its operand on the data port and the host moved on. That the port and the host's
events stand in the state is the model's choice (log entries 4 and 5). -/
def Obligations.StepRunsDecoded : Prop :=
  ∀ (s : State) (c : Command) (es : List HostEvent) (i : Instr), s.host = .issue c :: es → decode c.word = .ok i →
    (s.fault = none → step s = exec i ((s.withHost es).withDin c.din)) ∧
    stepIn .hardware s = exec i ((s.withHost es).withDin c.din)

/-- 60_exceptions.md R95, R96: a rejected command, whatever the reason, has none of its effect; ERR and ERRCODE take the first
rejection since reset only, the model's fault the first of all; it has no response. In the hardware's view `rdata` is 0 for a
rejected read and the block goes on with the next command (StepNeverStopsAfterReset); in the model's view no claim speaks of
`rdata`, and the run stops there. That the rejecting step answers a next state and the one after it stops is the model's choice
(log entry 1), and which words are rejected reads is read from the spec by inference (log entry 11). -/
def Obligations.RejectionIsPrecise : Prop :=
  ∀ (v : View) (s : State) (c : Command) (es : List HostEvent) (e : ErrCode), Going v s → s.resetSeen = true →
    s.host = .issue c :: es → rejection s c = some e →
    ∃ t, stepIn v s = .next t ∧ t.lanes = s.lanes ∧ t.busy = s.busy ∧ t.done = s.done ∧ t.lastMode = s.lastMode ∧
      t.ridx = s.ridx ∧ t.mode = s.mode ∧ t.err = true ∧ (s.err = true → t.errcode = s.errcode) ∧
      (s.err = false → t.errcode = errorCode e) ∧ (s.fault = none → t.fault = some e) ∧
      (s.fault ≠ none → t.fault = s.fault) ∧ t.response = none ∧ t.resetSeen = true ∧ t.host = es ∧
      (v = .hardware → isReadOpcode c.word = true → t.rdata = some 0) ∧
      (v = .model → resetNext t = false → step t = .fault (.rejected e))

/-- 60_exceptions.md R94, R95: only a rejection touches the error record: an accepted command leaves ERR, ERRCODE and the
model's fault as they were. -/
def Obligations.AcceptedLeavesErrors : Prop :=
  ∀ (v : View) (s : State) (c : Command) (es : List HostEvent), Going v s → s.resetSeen = true → s.host = .issue c :: es →
    rejection s c = none → ∃ t, stepIn v s = .next t ∧ t.err = s.err ∧ t.errcode = s.errcode ∧ t.fault = s.fault ∧ t.host = es

/-- 70_reset_and_hazards.md R113: while BUSY = 1 every decoded command but STATUS.RD is rejected with BUSY_HAZARD and its effect
is not performed. That the rejecting step answers a next state is the model's choice (log entry 1). -/
def Obligations.BusyHazard : Prop :=
  ∀ (i : Instr) (s : State), s.resetSeen = true → s.busy = true → i.wellFormed = true → i ≠ .statusRd →
    ∃ t, exec i s = .next t ∧ t.lanes = s.lanes ∧ t.busy = true ∧ t.done = s.done ∧ t.lastMode = s.lastMode ∧
      t.ridx = s.ridx ∧ t.mode = s.mode ∧ t.err = true ∧ (s.err = false → t.errcode = 5) ∧
      (s.fault = none → t.fault = some .busyHazard) ∧ t.response = none

/-- 60_exceptions.md R97, R95: a range error comes before the busy hazard: an out-of-range operand is reported as such in a busy
block too. It is said of exec, whose commands with such operands the decoder never yields: that their meanings repeat the
decoder's check is the model's inference (log entry 12); that the rejection answers a next state is its choice (log entry 1). -/
def Obligations.RangeBeforeBusy : Prop :=
  ∀ (s : State), s.resetSeen = true → s.err = false →
    (∀ x y : BitVec 3, (4 < x.toNat ∨ 4 < y.toNat) →
      ∃ t u, exec (.laneWr x y) s = .next t ∧ exec (.laneRd x y) s = .next u ∧
        t.errcode = 3 ∧ u.errcode = 3 ∧ t.lanes = s.lanes ∧ u.lanes = s.lanes) ∧
    (∀ o d : BitVec 8, 199 < o.toNat →
      ∃ t u, exec (.byteWr o d) s = .next t ∧ exec (.byteRd o) s = .next u ∧
        t.errcode = 4 ∧ u.errcode = 4 ∧ t.lanes = s.lanes ∧ u.lanes = s.lanes)

/-! ## The commands -/

/-- 40_codec.md R62: LANE.WR replaces its lane by din; the other 24 lanes, STATUS and every hidden register keep their values;
no response. -/
def Obligations.LaneWrWrites : Prop :=
  ∀ (s : State) (x y : Fin 5), s.resetSeen = true → s.busy = false →
    ∃ t, exec (.laneWr (BitVec.ofNat 3 x.val) (BitVec.ofNat 3 y.val)) s = .next t ∧ laneAt t.lanes x y = s.din ∧
      (∀ x' y', (x', y') ≠ (x, y) → laneAt t.lanes x' y' = laneAt s.lanes x' y') ∧
      t.response = none ∧ (t.withLanes s.lanes).answer s.resp = s

/-- 40_codec.md R63, 30_encoding.md R54: LANE.RD answers the lane; nothing but the response port changes. -/
def Obligations.LaneRdReads : Prop :=
  ∀ (s : State) (x y : Fin 5), s.resetSeen = true → s.busy = false →
    ∃ t, exec (.laneRd (BitVec.ofNat 3 x.val) (BitVec.ofNat 3 y.val)) s = .next t ∧
      t.response = some (laneAt s.lanes x y) ∧ t.answer s.resp = s

/-- 40_codec.md R64: BYTE.WR replaces its byte; every other byte, STATUS and every hidden register keep their values; no
response. -/
def Obligations.ByteWrWrites : Prop :=
  ∀ (s : State) (k : Fin 200) (d : BitVec 8), s.resetSeen = true → s.busy = false →
    ∃ t, exec (.byteWr (BitVec.ofNat 8 k.val) d) s = .next t ∧ t.byteAt k.val = some d ∧
      (∀ a, a ≠ k.val → t.byteAt a = s.byteAt a) ∧ t.response = none ∧ (t.withLanes s.lanes).answer s.resp = s

/-- 40_codec.md R65, 30_encoding.md R54: BYTE.RD answers the byte, zero-extended: rdata[63:8] is 0; nothing but the response port
changes. -/
def Obligations.ByteRdReads : Prop :=
  ∀ (s : State) (k : Fin 200), s.resetSeen = true → s.busy = false →
    ∃ t v, exec (.byteRd (BitVec.ofNat 8 k.val)) s = .next t ∧ t.response = some v ∧
      s.byteAt k.val = some (v.extractLsb' 0 8) ∧ v >>> 8 = 0 ∧ t.answer s.resp = s

/-- 42_sequencer.md R85, R86: at acceptance a PERM command sets BUSY, clears DONE and writes LAST_MODE, MODE and RIDX; S, the error
fields and everything else keep their values; no response. -/
def Obligations.PermStarts : Prop :=
  ∀ (s : State), s.resetSeen = true → s.busy = false →
    (∃ t, exec .permFull s = .next t ∧ t.busy = true ∧ t.done = false ∧ t.lastMode = false ∧ t.mode = .full ∧ t.ridx = 0 ∧
      t.lanes = s.lanes ∧ t.err = s.err ∧ t.errcode = s.errcode ∧ t.fault = s.fault ∧ t.resetSeen = true ∧ t.response = none) ∧
    (∃ t, exec .permHalf s = .next t ∧ t.busy = true ∧ t.done = false ∧ t.lastMode = true ∧ t.mode = .half ∧ t.ridx = 12 ∧
      t.lanes = s.lanes ∧ t.err = s.err ∧ t.errcode = s.errcode ∧ t.fault = s.fault ∧ t.resetSeen = true ∧ t.response = none)

/-- 42_sequencer.md R90, 10_state.md R19: STATUS.RD answers the status word, also while BUSY = 1: each field in its bits and every
reserved bit 0; nothing but the response port changes. -/
def Obligations.StatusRdReads : Prop :=
  ∀ (s : State), s.resetSeen = true →
    ∃ t v, exec .statusRd s = .next t ∧ t.response = some v ∧ v.getLsbD 0 = s.busy ∧ v.getLsbD 1 = s.done ∧
      v.getLsbD 2 = s.lastMode ∧ v.getLsbD 8 = s.err ∧ v.extractLsb' 9 3 = s.errcode ∧
      v &&& 0xFFFFFFFFFFFFF0F8 = 0 ∧ t.answer s.resp = s

/-! ## Frames -/

/-- 40_codec.md R62 to R65, 42_sequencer.md R85, R86, R90: a command that answers a next state leaves every byte of memory as it was,
but for the eight bytes of the lane that LANE.WR names and the one byte that BYTE.WR names. -/
def Obligations.CommandMemoryFrame : Prop :=
  ∀ (i : Instr) (s t : State), exec i s = .next t → ∀ a : Nat,
    (match i with
      | .laneWr x y => a < 8 * (x.toNat + 5 * y.toNat) ∨ 8 * (x.toNat + 5 * y.toNat) + 8 ≤ a
      | .byteWr ofs _ => a ≠ ofs.toNat
      | .laneRd _ _ => True
      | .byteRd _ => True
      | .permFull => True
      | .permHalf => True
      | .statusRd => True) → t.byteAt a = s.byteAt a

/-- 10_state.md R20 to R22, R25: only the PERM commands write BUSY, DONE, LAST_MODE, RIDX and MODE; no command touches the data
port, the reset record or the host's further events. -/
def Obligations.CommandRegisterFrame : Prop :=
  ∀ (i : Instr) (s t : State), exec i s = .next t →
    t.resetSeen = s.resetSeen ∧ t.din = s.din ∧ t.host = s.host ∧ t.losses = s.losses ∧
    (i ≠ .permFull → i ≠ .permHalf →
      t.busy = s.busy ∧ t.done = s.done ∧ t.lastMode = s.lastMode ∧ t.ridx = s.ridx ∧ t.mode = s.mode)

/-- 30_encoding.md R47: only LANE.WR reads din: any other command does the same whatever stands there. That
the port stands in the state is the model's choice (log entry 5). -/
def Obligations.OnlyLaneWrReadsDin : Prop :=
  ∀ (i : Instr) (s : State) (d : Word), (∀ x y, i ≠ .laneWr x y) →
    Agree (fun t t' => t' = t.withDin d) (exec i s) (exec i (s.withDin d))

/-! ## The codec -/

/-- 20_memory.md R36, 40_codec.md R66: a LANE.WR followed by a LANE.RD of the lane answers the value, and followed by a BYTE.RD of
the lane's byte j it answers bits [8j+7:8j]. -/
def Obligations.LaneWrThenReads : Prop :=
  ∀ (s : State) (x y : Fin 5) (j : Fin 8), s.resetSeen = true → s.busy = false →
    ∃ t u v, exec (.laneWr (BitVec.ofNat 3 x.val) (BitVec.ofNat 3 y.val)) s = .next t ∧
      exec (.laneRd (BitVec.ofNat 3 x.val) (BitVec.ofNat 3 y.val)) t = .next u ∧ u.response = some s.din ∧
      exec (.byteRd (BitVec.ofNat 8 (8 * (x.val + 5 * y.val) + j.val))) t = .next v ∧
      v.response = some ((s.din.extractLsb' (8 * j.val) 8).setWidth 64)

/-- 20_memory.md R36: after byte writes of b0..b7 to offsets 8i..8i+7 the lane reads b7 ++ b6 ++ ... ++ b0. -/
def Obligations.EightByteWritesMakeLane : Prop :=
  ∀ (A : Lanes) (x y : Fin 5) (b : Fin 8 → Byte),
    laneAt ((List.finRange 8).foldl (fun B j => writeByte B (byteOffset x y j) (b j)) A) x y =
      b 7 ++ b 6 ++ b 5 ++ b 4 ++ b 3 ++ b 2 ++ b 1 ++ b 0

/-- 20_memory.md R36: the codec is a bijection between 200-byte buffers and lane arrays. -/
def Obligations.CodecBijection : Prop :=
  (∀ b : Bytes, encodeBytes (decodeBytes b) = b) ∧ ∀ A : Lanes, decodeBytes (encodeBytes A) = A

/-- 30_encoding.md R61, 40_codec.md R66: the assembler accepts the lines of `state.load B`, 25 commands, and they leave S holding
Dec(B), so that Enc(S) is B, whatever S held; the error record is as it was. -/
def Obligations.StateLoadFillsS : Prop :=
  ∀ b : Bytes, ∃ cs : List Command, (expand (.stateLoad b)).mapM assemble = some cs ∧ cs.length = 25 ∧
    ∀ (v : View) (s : State) (es : List HostEvent), Going v s → s.resetSeen = true → s.busy = false →
      s.host = cs.map HostEvent.issue ++ es →
      ∃ t, runSteps v 25 s = .next t ∧ t.lanes = decodeBytes b ∧ encodeBytes t.lanes = b ∧ t.err = s.err ∧
        t.errcode = s.errcode ∧ t.fault = s.fault ∧ t.host = es

/-- 30_encoding.md R61, 40_codec.md R66: the assembler accepts the lines of `state.store`, 25 commands; the bytes that the host
assembles from their 25 responses are Enc(S), and S and the error record are as they were; and after `state.load B` they are
B. -/
def Obligations.StateStoreReturnsS : Prop :=
  ∃ ds : List Command, (expand .stateStore).mapM assemble = some ds ∧ ds.length = 25 ∧
    (∀ (v : View) (s : State) (es : List HostEvent), Going v s → s.resetSeen = true → s.busy = false →
      s.host = ds.map HostEvent.issue ++ es →
      ∃ t, runSteps v 25 s = .next t ∧ storedBytes (responses v 25 s) = some (encodeBytes s.lanes) ∧ t.lanes = s.lanes ∧
        t.err = s.err ∧ t.errcode = s.errcode ∧ t.fault = s.fault ∧ t.host = es) ∧
    ∀ b : Bytes, ∃ cs : List Command, (expand (.stateLoad b)).mapM assemble = some cs ∧
      ∀ (v : View) (s : State) (es : List HostEvent), Going v s → s.resetSeen = true → s.busy = false →
        s.host = cs.map HostEvent.issue ++ (ds.map HostEvent.issue ++ es) →
        ∃ t u, runSteps v 25 s = .next t ∧ runSteps v 25 t = .next u ∧ storedBytes (responses v 25 t) = some b ∧ u.host = es

/-! ## The round function -/

/-- 00_scope.md R8: after a rotate left by n, bit z of the result is bit (z - n) mod 64 of the value. -/
def Obligations.RotateMovesBits : Prop :=
  ∀ (v : Word) (n z : Nat), n < 64 → z < 64 → (rol64 v n).getLsbD z = v.getLsbD ((z + 64 - n) % 64)

/-- 41_round.md R72: theta bit by bit, each bit with the parity of column x - 1 at its place and the parity of column x + 1 one
place below; theta is linear over GF(2); and it leaves unchanged any array whose every column parity is 0. -/
def Obligations.ThetaLaws : Prop :=
  (∀ (A : Lanes) (x y : Fin 5) (z : Nat), z < 64 →
    let bit (x y : Fin 5) (z : Nat) : Bool := (laneAt A x y).getLsbD z
    let parity (x : Fin 5) (z : Nat) : Bool := bit x 0 z ^^ bit x 1 z ^^ bit x 2 z ^^ bit x 3 z ^^ bit x 4 z
    (laneAt (thetaStep A) x y).getLsbD z = (bit x y z ^^ parity (x - 1) z ^^ parity (x + 1) ((z + 63) % 64))) ∧
  (∀ A B : Lanes, thetaStep (ofLanes fun x y => laneAt A x y ^^^ laneAt B x y) =
    ofLanes fun x y => laneAt (thetaStep A) x y ^^^ laneAt (thetaStep B) x y) ∧
  ∀ A : Lanes, (∀ x, columnParity A x = 0) → thetaStep A = A

/-- 41_round.md R73: rho rotates every lane left by its offset in ROT: bit z of lane (x, y) is bit z - ROT[x,y] mod 64 of the lane
before. The offsets are below 64, and lane (0,0) is not rotated. -/
def Obligations.RhoRotatesLanes : Prop :=
  (∀ (A : Lanes) (x y : Fin 5) (z : Nat), z < 64 →
    (laneAt (rhoStep A) x y).getLsbD z = (laneAt A x y).getLsbD ((z + 64 - rot x y) % 64)) ∧
  (∀ x y : Fin 5, rot x y < 64) ∧ ∀ A : Lanes, laneAt (rhoStep A) 0 0 = laneAt A 0 0

/-- 41_round.md R74: pi moves the lane at (x, y) to (y, (2x + 3y) mod 5), whole. -/
def Obligations.PiMovesLanes : Prop :=
  ∀ (A : Lanes) (x y : Fin 5), laneAt (piStep A) y (2 * x + 3 * y) = laneAt A x y

/-- 41_round.md R75: chi works bit by bit within a row, and is a bijection. -/
def Obligations.ChiBijective : Prop :=
  (∀ (A : Lanes) (x y : Fin 5) (z : Nat), z < 64 → (laneAt (chiStep A) x y).getLsbD z =
    ((laneAt A x y).getLsbD z ^^ (!(laneAt A (x + 1) y).getLsbD z && (laneAt A (x + 2) y).getLsbD z))) ∧
  Function.Bijective chiStep

/-- 41_round.md R76, R78: iota XORs RC[i] into lane (0,0) and leaves the other 24 lanes, and the round index has no other effect:
two rounds of one array differ in lane (0,0) only, by the two constants. -/
def Obligations.RoundIndexOnlyInIota : Prop :=
  (∀ (A : Lanes) (i : Fin 24) (x y : Fin 5), laneAt (iotaStep A i) x y =
    if x = 0 ∧ y = 0 then laneAt A x y ^^^ rc i else laneAt A x y) ∧
  ∀ (A : Lanes) (i j : Fin 24) (x y : Fin 5), laneAt (keccakRound A i) x y ^^^ laneAt (keccakRound A j) x y =
    if x = 0 ∧ y = 0 then rc i ^^^ rc j else 0

/-- 41_round.md R79: the round of the zero array has RC[i] in lane (0,0) and 0 in every other lane. -/
def Obligations.RoundOfZero : Prop :=
  ∀ i : Fin 24, keccakRound State.reset.lanes i = setLane State.reset.lanes 0 0 (rc i)

/-- 41_round.md R70: the round-constant table is what the LFSR gives. -/
def Obligations.RcFromLfsr : Prop := ∀ i : Fin 24, rc i = derivedRc i.val

/-- 41_round.md R71: the rotation table is what the walk gives, and the walk visits the 24 lanes other than (0,0), once each. -/
def Obligations.RotFromWalk : Prop :=
  rot 0 0 = 0 ∧ (∀ t : Fin 24, rot (rotWalk t.val).1 (rotWalk t.val).2 = walkOffset t.val) ∧
  ∀ x y : Fin 5, (x, y) ≠ (0, 0) → ∃ t : Fin 24, rotWalk t.val = (x, y)

/-! ## The permutation -/

/-- 42_sequencer.md R91: Full is rounds 0..11 and then Half. -/
def Obligations.Composition : Prop :=
  ∀ A : Lanes, fullPerm A = halfPerm (runRounds A [0, 1, 2, 3, 4, 5, 6, 7, 8, 9, 10, 11])

/-- 41_round.md R81: the adapted chi, on lanes held complemented where `held` says so, makes the lanes of the plain chi,
complemented where `made` says so; and whatever set of lanes is complemented at entry and exit, the rounds with theta, rho, pi and
iota as they are and the adapted chi give Perm with the plain chi. The form of the adapted chi and the arbitrary set are the
model's choice, and the machine's own step uses the plain chi (log entry 20). -/
def Obligations.ComplementingIsInvisible : Prop :=
  (∀ (held made : LaneSet) (A : Lanes), adaptedChi held made (complementLanes held A) = complementLanes made (chiStep A)) ∧
  ∀ (set : LaneSet) (A : Lanes) (f : Nat), complementedPerm set A f = permFrom A f

/-- 42_sequencer.md R93: Full and Half are bijections on the states. -/
def Obligations.PermutationsBijective : Prop :=
  Function.Bijective fullPerm ∧ Function.Bijective halfPerm

/-! ## The sequencer -/

/-- 42_sequencer.md R87, R88: in a slot the host leaves free, the sequencer of a busy block performs round RIDX on S; round 23
clears BUSY and sets DONE in the same step, any other moves RIDX on; it changes nothing else. RIDX
keeps 23 in the last of them, read from the pseudocode of R87 (log entry 3). -/
def Obligations.SequencerStep : Prop :=
  ∀ (v : View) (s : State) (es : List HostEvent), Going v s → s.busy = true →
    (s.host = [] ∧ es = [] ∨ s.host = .quiet :: es) →
    ∃ t, stepIn v s = .next t ∧ t.lanes = keccakRound s.lanes s.ridx ∧
      (s.ridx = 23 → t.busy = false ∧ t.done = true ∧ t.ridx = s.ridx) ∧
      (s.ridx ≠ 23 → t.busy = true ∧ t.done = s.done ∧ t.ridx.val = s.ridx.val + 1) ∧
      t.lastMode = s.lastMode ∧ t.err = s.err ∧ t.errcode = s.errcode ∧ t.mode = s.mode ∧ t.fault = s.fault ∧
      t.resetSeen = s.resetSeen ∧ t.din = s.din ∧ t.resp = s.resp ∧ t.host = es ∧ t.losses = s.losses

/-- 42_sequencer.md R88, R92: a running permutation goes on: after n sequencer slots, fewer than the rounds left, BUSY is still 1,
RIDX has moved by n and S holds n further rounds. In the model's view the premise is that no command was rejected (60_exceptions.md
R96): the host only polls. In the hardware's view it issues what it likes, accepted or rejected (R95). The two views are log entry
1, and the list of events is the model's form of the interleaving (log entry 4). -/
def Obligations.InterleavingProgress : Prop :=
  ∀ (v : View) (es rest : List HostEvent) (s : State), Going v s → s.resetSeen = true → s.busy = true → s.host = es ++ rest →
    onlyCommands es = true → (v = .model → onlyPolls es = true) → s.ridx.val + quietCount es < 24 →
    ∃ t, runSteps v es.length s = .next t ∧ t.busy = true ∧ t.ridx.val = s.ridx.val + quietCount es ∧
      t.lanes = runRounds s.lanes ((roundIndices.drop s.ridx.val).take (quietCount es)) ∧ t.done = s.done ∧
      t.lastMode = s.lastMode ∧ t.mode = s.mode ∧ t.resetSeen = true ∧ t.host = rest ∧ (onlyPolls es = true → t.fault = s.fault)

/-- 42_sequencer.md R89: take an accepted PERM of mode m and any interleaving with the host's commands, up to the slot in which the
last round is performed: BUSY reads 0, DONE 1, and S is Full(S_0) or Half(S_0), S_0 being S at acceptance. In the model's view the
premise is that no command was rejected (60_exceptions.md R96, 70_reset_and_hazards.md R113, R114): the host only polls. In the
hardware's view it issues what it likes, accepted or rejected (R95). The two views are log entry 1, and the list of events is the
model's form of the interleaving (log entry 4). -/
def Obligations.AtomicEquivalence : Prop :=
  ∀ (v : View) (m : Mode) (s : State) (d : Word) (es rest : List HostEvent), Going v s → s.resetSeen = true → s.busy = false →
    s.host = .issue ⟨encode (permCommand m), d⟩ :: (es ++ .quiet :: rest) →
    onlyCommands es = true → (v = .model → onlyPolls es = true) → quietCount es + 1 = roundCount m →
    ∃ t, runSteps v (es.length + 2) s = .next t ∧ t.busy = false ∧ t.done = true ∧ t.lastMode = modeBit m ∧
      t.lanes = modePerm m s.lanes ∧ t.host = rest ∧ (onlyPolls es = true → t.fault = s.fault)

/-- 00_scope.md R13, 70_reset_and_hazards.md R117: the sequencer is not starved: a busy block whose host has nothing more to issue
completes after as many steps as rounds are left. The list of events is the model's form of the interleaving (log entry 4). -/
def Obligations.SequencerCompletes : Prop :=
  ∀ (v : View) (s : State), Going v s → s.busy = true → s.host = [] →
    ∃ t, runSteps v (24 - s.ridx.val) s = .next t ∧ t.busy = false ∧ t.done = true ∧
      t.lanes = permFrom s.lanes s.ridx.val ∧ t.lastMode = s.lastMode

/-! ## Whole-machine rules -/

/-- The invariant of Safety.lean holds at reset. -/
def Obligations.InvReset : Prop := Inv State.reset

/-- Every step, and every step of the hardware's view, keeps the invariant: ERRCODE is 0 exactly while ERR is 0 and never 6 or 7,
while ERR is 1 a fault is on record, BUSY and DONE are never both 1, and while BUSY = 1 LAST_MODE is the running mode and RIDX is in
its range (10_state.md R21, R24, R25, 60_exceptions.md R96). -/
def Obligations.InvStep : Prop :=
  ∀ s t : State, Inv s → (step s = .next t ∨ stepIn .hardware s = .next t) → Inv t

/-- 60_exceptions.md R96, 70_reset_and_hazards.md R107, R108: in no view does a step clear a recorded fault or replace it, not even a
reset; the machine's step stops with it in every faulted state, unless a reset comes next; and no faulted state is final,
00_scope.md R14. What a final state is the spec does not define: Final is the model's inference (log entry 22). That the rejecting
step itself answers a next state is the model's choice (log entry 1), and so is the record's survival of a loss of power (log
entry 10). -/
def Obligations.FaultNeverCleared : Prop :=
  (∀ (v : View) (s t : State) (e : ErrCode), s.fault = some e → stepIn v s = .next t → t.fault = some e) ∧
  (∀ (s : State) (e : ErrCode), s.fault = some e →
    (∀ lost es, s.host ≠ .reset lost :: es) → step s = .fault (.rejected e)) ∧
  ∀ (s : State) (e : ErrCode), s.fault = some e → ¬ Final s

/-- 10_state.md R20: BUSY is set only when a PERM command is accepted, and cleared only by the sequencer's round 23 or a reset. Loss
of power, which leaves it unspecified, is set aside (60_exceptions.md R106). -/
def Obligations.BusyChanges : Prop :=
  ∀ (v : View) (s t : State), stepIn v s = .next t → (∀ es, s.host ≠ .powerLoss :: es) →
    (s.busy = false → t.busy = true →
      ∃ c es, s.host = .issue c :: es ∧ (decode c.word = .ok .permFull ∨ decode c.word = .ok .permHalf)) ∧
    (s.busy = true → t.busy = false →
      (∃ lost es, s.host = .reset lost :: es) ∨
      (s.ridx = 23 ∧ t.done = true ∧ t.lanes = keccakRound s.lanes 23 ∧ (s.host = [] ∨ ∃ es, s.host = .quiet :: es)))

/-- 10_state.md R21: DONE is set only by the sequencer step that performs round 23, the one that clears BUSY, and cleared only when a
PERM command is accepted or by a reset. Loss of power is set aside (60_exceptions.md R106). -/
def Obligations.DoneChanges : Prop :=
  ∀ (v : View) (s t : State), stepIn v s = .next t → (∀ es, s.host ≠ .powerLoss :: es) →
    (s.done = false → t.done = true → s.busy = true ∧ s.ridx = 23 ∧ t.busy = false ∧ (s.host = [] ∨ ∃ es, s.host = .quiet :: es)) ∧
    (s.done = true → t.done = false →
      (∃ lost es, s.host = .reset lost :: es) ∨
      (∃ c es, s.host = .issue c :: es ∧ s.busy = false ∧ (decode c.word = .ok .permFull ∨ decode c.word = .ok .permHalf)))

/-- 10_state.md R22: LAST_MODE is written by accepted PERM commands, with their mode, and by reset; nothing else changes it. Loss of
power is set aside (60_exceptions.md R106). -/
def Obligations.LastModeChanges : Prop :=
  ∀ (v : View) (s t : State), stepIn v s = .next t → (∀ es, s.host ≠ .powerLoss :: es) → (∀ lost es, s.host ≠ .reset lost :: es) →
    (∀ c es, s.host = .issue c :: es → s.busy = false →
      (decode c.word = .ok .permFull → t.lastMode = false) ∧ (decode c.word = .ok .permHalf → t.lastMode = true)) ∧
    (t.lastMode ≠ s.lastMode →
      ∃ c es, s.host = .issue c :: es ∧ s.busy = false ∧ (decode c.word = .ok .permFull ∨ decode c.word = .ok .permHalf))

/-- 10_state.md R23, R24: once ERR is 1 it stays 1 and ERRCODE keeps the first rejection's code until a reset; and ERR becomes 1 only
when a command is rejected. Loss of power is set aside (60_exceptions.md R106). -/
def Obligations.ErrSticky : Prop :=
  ∀ (v : View) (s t : State), stepIn v s = .next t → (∀ es, s.host ≠ .powerLoss :: es) → (∀ lost es, s.host ≠ .reset lost :: es) →
    (s.err = true → t.err = true ∧ t.errcode = s.errcode) ∧
    (s.err = false → t.err = true → ∃ c es e, s.host = .issue c :: es ∧ rejection s c = some e ∧ t.errcode = errorCode e) ∧
    (s.err = false → t.err = false → t.errcode = s.errcode)

/-- 10_state.md R15, 42_sequencer.md R89, R92: S changes only by a codec write accepted while BUSY = 0, by a sequencer step while
BUSY = 1, or by a reset: no command changes S while a permutation runs. Loss of power is set aside (60_exceptions.md R106). -/
def Obligations.LanesChange : Prop :=
  ∀ (v : View) (s t : State), stepIn v s = .next t → (∀ es, s.host ≠ .powerLoss :: es) → (∀ lost es, s.host ≠ .reset lost :: es) →
    t.lanes ≠ s.lanes →
    (s.busy = true ∧ t.lanes = keccakRound s.lanes s.ridx ∧ ∀ c es, s.host ≠ .issue c :: es) ∨
    (s.busy = false ∧ ∃ c es i, s.host = .issue c :: es ∧ decode c.word = .ok i ∧
      ((∃ x y, i = .laneWr x y) ∨ ∃ o d, i = .byteWr o d))

/-- 10_state.md R25: RIDX and MODE of an idle block are read by nothing: two blocks that differ in them only show the host the same
for ever, whatever it does. So nothing the host sees rests on the model's values for them (log entries 2 and 3). -/
def Obligations.IdleHiddenUnread : Prop :=
  ∀ (v : View) (n : Nat) (s s' : State), HiddenEq s s' →
    Agree (fun t t' => HiddenEq t t' ∧ observe t = observe t') (runSteps v n s) (runSteps v n s')

/-- 41_round.md R82, 70_reset_and_hazards.md R118: no control decision depends on S: two blocks that differ in data only keep the same
status word, round index, error record and presence of responses for ever, whatever the host does. -/
def Obligations.ControlIndependentOfData : Prop :=
  ∀ (v : View) (n : Nat) (s s' : State), eraseData s = eraseData s' →
    Agree (fun t t' => eraseData t = eraseData t' ∧ t.status = t'.status) (runSteps v n s) (runSteps v n s')

/-- 60_exceptions.md R104: blocks share nothing: a step of one leaves every other as it is, and is the step of that block alone; a
host that does not own a block's port is refused. R104 says the last of the command port only: that a reset and a loss of power,
too, are refused from anyone but the owner, and the form of the refusal, are the model's choice (log entry 16). -/
def Obligations.BlocksShareNothing : Prop :=
  (∀ (sys sys' : System) (k : Nat), System.step sys k = .next sys' →
    (∀ j, j ≠ k → sys'[j]? = sys[j]?) ∧
    ∃ b t, sys[k]? = some b ∧ step b.block = .next t ∧ sys'[k]? = some { b with block := t }) ∧
  ∀ (sys : System) (h k : Nat) (b : OwnedBlock) (e : HostEvent), sys[k]? = some b → b.owner ≠ h →
    System.drive sys h k e = .refused .sharedPort
end

