-- ==== Sys2Proof/Laws/Decode.lean ====
section
/-! SUPPORT. Fields and encodings as numbers, so that facts about command words become facts of linear arithmetic, and which
format each opcode selects (30_encoding.md R48). -/

namespace Sys2Proof

theorem toNat_append_add {n m : Nat} (a : BitVec n) (b : BitVec m) : (a ++ b).toNat = a.toNat * 2 ^ m + b.toNat := by
  rw [BitVec.toNat_append, ← Nat.shiftLeft_add_eq_or_of_lt b.isLt, Nat.shiftLeft_eq]

/-- `w[hi:lo]` is a quotient and a remainder (00_scope.md R7). -/
theorem field_toNat (w : BitVec 32) (lo len : Nat) : (field w lo len).toNat = w.toNat / 2 ^ lo % 2 ^ len := by
  simp [field, BitVec.extractLsb'_toNat, Nat.shiftRight_eq_div_pow]

theorem field_eq_iff {w : BitVec 32} {lo len : Nat} {v : BitVec len} :
    field w lo len = v ↔ w.toNat / 2 ^ lo % 2 ^ len = v.toNat := by
  rw [← field_toNat]; exact ⟨fun h => h ▸ rfl, BitVec.eq_of_toNat_eq⟩

theorem opcode_eq_iff {w : BitVec 32} {o : BitVec 8} : opcode w = o ↔ w.toNat / 2 ^ 24 % 2 ^ 8 = o.toNat := field_eq_iff

/-- A format L word is `(OPC<<24) + (Y<<12) + (X<<8)` (30_encoding.md R49). -/
theorem encodeLane_toNat (o : BitVec 8) (x y : BitVec 3) :
    (encodeLane o x y).toNat = o.toNat * 2 ^ 24 + y.toNat * 2 ^ 12 + x.toNat * 2 ^ 8 := by
  simp only [encodeLane, toNat_append_add, BitVec.toNat_ofNat]; omega

/-- A format B word is `(OPC<<24) + (OFS<<8) + DATA8` (30_encoding.md R50). -/
theorem encodeByte_toNat (o ofs data8 : BitVec 8) :
    (encodeByte o ofs data8).toNat = o.toNat * 2 ^ 24 + ofs.toNat * 2 ^ 8 + data8.toNat := by
  simp only [encodeByte, toNat_append_add, BitVec.toNat_ofNat]; omega

theorem decode_of_laneWr {w : BitVec 32} (h : opcode w = 0x01) : decode w = decodeLane .laneWr w := by simp [decode, h]

theorem decode_of_laneRd {w : BitVec 32} (h : opcode w = 0x02) : decode w = decodeLane .laneRd w := by simp [decode, h]

theorem decode_of_byteWr {w : BitVec 32} (h : opcode w = 0x03) : decode w = decodeByteWr w := by simp [decode, h]

theorem decode_of_byteRd {w : BitVec 32} (h : opcode w = 0x04) : decode w = decodeByteRd w := by simp [decode, h]

theorem decode_of_perm {w : BitVec 32} (h : opcode w = 0x10) : decode w = decodePerm w := by simp [decode, h]

theorem decode_of_status {w : BitVec 32} (h : opcode w = 0x20) : decode w = decodeStatus w := by simp [decode, h]

/-- The seven cases of an opcode (30_encoding.md R48). -/
theorem opcode_cases (w : BitVec 32) :
    opcode w = 0x01 ∨ opcode w = 0x02 ∨ opcode w = 0x03 ∨ opcode w = 0x04 ∨ opcode w = 0x10 ∨ opcode w = 0x20 ∨
      ((opcode w ≠ 0x01 ∧ opcode w ≠ 0x02 ∧ opcode w ≠ 0x03 ∧ opcode w ≠ 0x04 ∧ opcode w ≠ 0x10 ∧ opcode w ≠ 0x20) ∧
        decode w = .error .illegalOpcode) := by
  by_cases h1 : opcode w = 0x01; · exact .inl h1
  by_cases h2 : opcode w = 0x02; · exact .inr (.inl h2)
  by_cases h3 : opcode w = 0x03; · exact .inr (.inr (.inl h3))
  by_cases h4 : opcode w = 0x04; · exact .inr (.inr (.inr (.inl h4)))
  by_cases h5 : opcode w = 0x10; · exact .inr (.inr (.inr (.inr (.inl h5))))
  by_cases h6 : opcode w = 0x20; · exact .inr (.inr (.inr (.inr (.inr (.inl h6)))))
  exact .inr (.inr (.inr (.inr (.inr (.inr ⟨⟨h1, h2, h3, h4, h5, h6⟩, by
    rw [decode, if_neg h1, if_neg h2, if_neg h3, if_neg h4, if_neg h5, if_neg h6]⟩)))))

/-- The decoder gives well-formed commands only: a field out of range is an error (30_encoding.md R55, R58). -/
theorem decode_wellFormed {w : BitVec 32} {i : Instr} (h : decode w = .ok i) : i.wellFormed = true := by
  have lane : ∀ {mk : BitVec 3 → BitVec 3 → Instr}, (∀ x y, (mk x y).wellFormed = (coordOk x && coordOk y)) →
      decodeLane mk w = .ok i → i.wellFormed = true := by
    intro mk hmk h'
    unfold decodeLane at h'
    split at h'
    · cases h'
    · split at h'
      · cases h'
      · rename_i hr
        cases h'
        simpa [hmk] using hr
  rcases opcode_cases w with ho | ho | ho | ho | ho | ho | ⟨_, ho⟩
  · rw [decode_of_laneWr ho] at h; exact lane (fun _ _ => rfl) h
  · rw [decode_of_laneRd ho] at h; exact lane (fun _ _ => rfl) h
  · rw [decode_of_byteWr ho, decodeByteWr] at h
    split at h
    · cases h
    · split at h
      · cases h
      · rename_i hr
        cases h
        simpa [Instr.wellFormed] using hr
  · rw [decode_of_byteRd ho, decodeByteRd] at h
    split at h
    · cases h
    · split at h
      · cases h
      · rename_i hr
        cases h
        simpa [Instr.wellFormed] using hr
  · rw [decode_of_perm ho, decodePerm] at h
    split at h
    · cases h
    · split at h <;> (cases h; rfl)
  · rw [decode_of_status ho, decodeStatus] at h
    split at h
    · cases h
    · cases h; rfl
  · rw [ho] at h; cases h

end Sys2Proof
end

