-- ==== Sys2Proof/Laws/Operands.lean ====
section
/-! SUPPORT. Operand assembly: in range it gives the operand, outside its error. -/

namespace Sys2Proof.Machine

theorem laneOperand_ok {x y : BitVec 3} (hx : x.toNat < 5) (hy : y.toNat < 5) :
    laneOperand x y = .ok (⟨x.toNat, hx⟩, ⟨y.toNat, hy⟩) := by
  simp [laneOperand, coordinate, hx, hy]

theorem laneOperand_error {x y : BitVec 3} (h : 5 ≤ x.toNat ∨ 5 ≤ y.toNat) : laneOperand x y = .error .laneRange := by
  rcases h with h | h
  · simp [laneOperand, coordinate, Nat.not_lt.2 h]
  · by_cases hx : x.toNat < 5 <;> simp [laneOperand, coordinate, Nat.not_lt.2 h, hx]

theorem byteOperand_ok {ofs : BitVec 8} (h : ofs.toNat < 200) : byteOperand ofs = .ok ⟨ofs.toNat, h⟩ := by
  simp [byteOperand, h]

theorem byteOperand_error {ofs : BitVec 8} (h : 200 ≤ ofs.toNat) : byteOperand ofs = .error .byteRange := by
  simp [byteOperand, Nat.not_lt.2 h]

/-- A format L operand is assembled, or the error is LANE_RANGE and a coordinate is out of range (30_encoding.md R58). -/
theorem laneOperand_cases (x y : BitVec 3) :
    (∃ (hx : x.toNat < 5) (hy : y.toNat < 5), laneOperand x y = .ok (⟨x.toNat, hx⟩, ⟨y.toNat, hy⟩)) ∨
      ((5 ≤ x.toNat ∨ 5 ≤ y.toNat) ∧ laneOperand x y = .error .laneRange) := by
  by_cases hx : x.toNat < 5
  · by_cases hy : y.toNat < 5
    · exact .inl ⟨hx, hy, laneOperand_ok hx hy⟩
    · exact .inr ⟨.inr (by omega), laneOperand_error (.inr (by omega))⟩
  · exact .inr ⟨.inl (by omega), laneOperand_error (.inl (by omega))⟩

/-- A format B operand is assembled, or the error is BYTE_RANGE and the offset is out of range (30_encoding.md R58). -/
theorem byteOperand_cases (ofs : BitVec 8) :
    (∃ h : ofs.toNat < 200, byteOperand ofs = .ok ⟨ofs.toNat, h⟩) ∨
      (200 ≤ ofs.toNat ∧ byteOperand ofs = .error .byteRange) := by
  by_cases h : ofs.toNat < 200
  · exact .inl ⟨h, byteOperand_ok h⟩
  · exact .inr ⟨by omega, byteOperand_error (by omega)⟩

end Sys2Proof.Machine
end

