-- ==== Sys2Proof/Laws/State.lean ====
section
/-! SUPPORT. One lemma per field per update of the state, each true by rfl, so that no later proof unfolds a record update. -/

namespace Sys2Proof.Machine

variable (s : State)

/-! State.answer -/

@[simp] theorem State.answer_lanes (r : Response) : (s.answer r).lanes = s.lanes := rfl
@[simp] theorem State.answer_busy (r : Response) : (s.answer r).busy = s.busy := rfl
@[simp] theorem State.answer_done (r : Response) : (s.answer r).done = s.done := rfl
@[simp] theorem State.answer_lastMode (r : Response) : (s.answer r).lastMode = s.lastMode := rfl
@[simp] theorem State.answer_err (r : Response) : (s.answer r).err = s.err := rfl
@[simp] theorem State.answer_errcode (r : Response) : (s.answer r).errcode = s.errcode := rfl
@[simp] theorem State.answer_ridx (r : Response) : (s.answer r).ridx = s.ridx := rfl
@[simp] theorem State.answer_mode (r : Response) : (s.answer r).mode = s.mode := rfl
@[simp] theorem State.answer_fault (r : Response) : (s.answer r).fault = s.fault := rfl
@[simp] theorem State.answer_resetSeen (r : Response) : (s.answer r).resetSeen = s.resetSeen := rfl
@[simp] theorem State.answer_din (r : Response) : (s.answer r).din = s.din := rfl
@[simp] theorem State.answer_resp (r : Response) : (s.answer r).resp = r := rfl
@[simp] theorem State.answer_host (r : Response) : (s.answer r).host = s.host := rfl
@[simp] theorem State.answer_losses (r : Response) : (s.answer r).losses = s.losses := rfl

/-! State.withLanes -/

@[simp] theorem State.withLanes_lanes (A : Lanes) : (s.withLanes A).lanes = A := rfl
@[simp] theorem State.withLanes_busy (A : Lanes) : (s.withLanes A).busy = s.busy := rfl
@[simp] theorem State.withLanes_done (A : Lanes) : (s.withLanes A).done = s.done := rfl
@[simp] theorem State.withLanes_lastMode (A : Lanes) : (s.withLanes A).lastMode = s.lastMode := rfl
@[simp] theorem State.withLanes_err (A : Lanes) : (s.withLanes A).err = s.err := rfl
@[simp] theorem State.withLanes_errcode (A : Lanes) : (s.withLanes A).errcode = s.errcode := rfl
@[simp] theorem State.withLanes_ridx (A : Lanes) : (s.withLanes A).ridx = s.ridx := rfl
@[simp] theorem State.withLanes_mode (A : Lanes) : (s.withLanes A).mode = s.mode := rfl
@[simp] theorem State.withLanes_fault (A : Lanes) : (s.withLanes A).fault = s.fault := rfl
@[simp] theorem State.withLanes_resetSeen (A : Lanes) : (s.withLanes A).resetSeen = s.resetSeen := rfl
@[simp] theorem State.withLanes_din (A : Lanes) : (s.withLanes A).din = s.din := rfl
@[simp] theorem State.withLanes_resp (A : Lanes) : (s.withLanes A).resp = s.resp := rfl
@[simp] theorem State.withLanes_host (A : Lanes) : (s.withLanes A).host = s.host := rfl
@[simp] theorem State.withLanes_losses (A : Lanes) : (s.withLanes A).losses = s.losses := rfl

/-! State.withHost -/

@[simp] theorem State.withHost_lanes (es : List HostEvent) : (s.withHost es).lanes = s.lanes := rfl
@[simp] theorem State.withHost_busy (es : List HostEvent) : (s.withHost es).busy = s.busy := rfl
@[simp] theorem State.withHost_done (es : List HostEvent) : (s.withHost es).done = s.done := rfl
@[simp] theorem State.withHost_lastMode (es : List HostEvent) : (s.withHost es).lastMode = s.lastMode := rfl
@[simp] theorem State.withHost_err (es : List HostEvent) : (s.withHost es).err = s.err := rfl
@[simp] theorem State.withHost_errcode (es : List HostEvent) : (s.withHost es).errcode = s.errcode := rfl
@[simp] theorem State.withHost_ridx (es : List HostEvent) : (s.withHost es).ridx = s.ridx := rfl
@[simp] theorem State.withHost_mode (es : List HostEvent) : (s.withHost es).mode = s.mode := rfl
@[simp] theorem State.withHost_fault (es : List HostEvent) : (s.withHost es).fault = s.fault := rfl
@[simp] theorem State.withHost_resetSeen (es : List HostEvent) : (s.withHost es).resetSeen = s.resetSeen := rfl
@[simp] theorem State.withHost_din (es : List HostEvent) : (s.withHost es).din = s.din := rfl
@[simp] theorem State.withHost_resp (es : List HostEvent) : (s.withHost es).resp = s.resp := rfl
@[simp] theorem State.withHost_host (es : List HostEvent) : (s.withHost es).host = es := rfl
@[simp] theorem State.withHost_losses (es : List HostEvent) : (s.withHost es).losses = s.losses := rfl

/-! State.withDin -/

@[simp] theorem State.withDin_lanes (d : Word) : (s.withDin d).lanes = s.lanes := rfl
@[simp] theorem State.withDin_busy (d : Word) : (s.withDin d).busy = s.busy := rfl
@[simp] theorem State.withDin_done (d : Word) : (s.withDin d).done = s.done := rfl
@[simp] theorem State.withDin_lastMode (d : Word) : (s.withDin d).lastMode = s.lastMode := rfl
@[simp] theorem State.withDin_err (d : Word) : (s.withDin d).err = s.err := rfl
@[simp] theorem State.withDin_errcode (d : Word) : (s.withDin d).errcode = s.errcode := rfl
@[simp] theorem State.withDin_ridx (d : Word) : (s.withDin d).ridx = s.ridx := rfl
@[simp] theorem State.withDin_mode (d : Word) : (s.withDin d).mode = s.mode := rfl
@[simp] theorem State.withDin_fault (d : Word) : (s.withDin d).fault = s.fault := rfl
@[simp] theorem State.withDin_resetSeen (d : Word) : (s.withDin d).resetSeen = s.resetSeen := rfl
@[simp] theorem State.withDin_din (d : Word) : (s.withDin d).din = d := rfl
@[simp] theorem State.withDin_resp (d : Word) : (s.withDin d).resp = s.resp := rfl
@[simp] theorem State.withDin_host (d : Word) : (s.withDin d).host = s.host := rfl
@[simp] theorem State.withDin_losses (d : Word) : (s.withDin d).losses = s.losses := rfl

/-! State.startPerm -/

@[simp] theorem State.startPerm_lanes (m : Mode) : (s.startPerm m).lanes = s.lanes := rfl
@[simp] theorem State.startPerm_busy (m : Mode) : (s.startPerm m).busy = true := rfl
@[simp] theorem State.startPerm_done (m : Mode) : (s.startPerm m).done = false := rfl
@[simp] theorem State.startPerm_lastMode (m : Mode) : (s.startPerm m).lastMode = modeBit m := rfl
@[simp] theorem State.startPerm_err (m : Mode) : (s.startPerm m).err = s.err := rfl
@[simp] theorem State.startPerm_errcode (m : Mode) : (s.startPerm m).errcode = s.errcode := rfl
@[simp] theorem State.startPerm_ridx (m : Mode) : (s.startPerm m).ridx = firstRound m := rfl
@[simp] theorem State.startPerm_mode (m : Mode) : (s.startPerm m).mode = m := rfl
@[simp] theorem State.startPerm_fault (m : Mode) : (s.startPerm m).fault = s.fault := rfl
@[simp] theorem State.startPerm_resetSeen (m : Mode) : (s.startPerm m).resetSeen = s.resetSeen := rfl
@[simp] theorem State.startPerm_din (m : Mode) : (s.startPerm m).din = s.din := rfl
@[simp] theorem State.startPerm_resp (m : Mode) : (s.startPerm m).resp = s.resp := rfl
@[simp] theorem State.startPerm_host (m : Mode) : (s.startPerm m).host = s.host := rfl
@[simp] theorem State.startPerm_losses (m : Mode) : (s.startPerm m).losses = s.losses := rfl

/-! State.recordError -/

@[simp] theorem State.recordError_lanes (e : ErrCode) : (s.recordError e).lanes = s.lanes := rfl
@[simp] theorem State.recordError_busy (e : ErrCode) : (s.recordError e).busy = s.busy := rfl
@[simp] theorem State.recordError_done (e : ErrCode) : (s.recordError e).done = s.done := rfl
@[simp] theorem State.recordError_lastMode (e : ErrCode) : (s.recordError e).lastMode = s.lastMode := rfl
@[simp] theorem State.recordError_err (e : ErrCode) : (s.recordError e).err = true := rfl
@[simp] theorem State.recordError_errcode (e : ErrCode) : (s.recordError e).errcode = if s.err then s.errcode else errorCode e := rfl
@[simp] theorem State.recordError_ridx (e : ErrCode) : (s.recordError e).ridx = s.ridx := rfl
@[simp] theorem State.recordError_mode (e : ErrCode) : (s.recordError e).mode = s.mode := rfl
@[simp] theorem State.recordError_fault (e : ErrCode) : (s.recordError e).fault = (s.fault <|> some e) := rfl
@[simp] theorem State.recordError_resetSeen (e : ErrCode) : (s.recordError e).resetSeen = s.resetSeen := rfl
@[simp] theorem State.recordError_din (e : ErrCode) : (s.recordError e).din = s.din := rfl
@[simp] theorem State.recordError_resp (e : ErrCode) : (s.recordError e).resp = s.resp := rfl
@[simp] theorem State.recordError_host (e : ErrCode) : (s.recordError e).host = s.host := rfl
@[simp] theorem State.recordError_losses (e : ErrCode) : (s.recordError e).losses = s.losses := rfl

/-! State.reject -/

@[simp] theorem State.reject_lanes (isRead : Bool) (e : ErrCode) : (s.reject isRead e).lanes = s.lanes := rfl
@[simp] theorem State.reject_busy (isRead : Bool) (e : ErrCode) : (s.reject isRead e).busy = s.busy := rfl
@[simp] theorem State.reject_done (isRead : Bool) (e : ErrCode) : (s.reject isRead e).done = s.done := rfl
@[simp] theorem State.reject_lastMode (isRead : Bool) (e : ErrCode) : (s.reject isRead e).lastMode = s.lastMode := rfl
@[simp] theorem State.reject_err (isRead : Bool) (e : ErrCode) : (s.reject isRead e).err = true := rfl
@[simp] theorem State.reject_errcode (isRead : Bool) (e : ErrCode) : (s.reject isRead e).errcode = if s.err then s.errcode else errorCode e := rfl
@[simp] theorem State.reject_ridx (isRead : Bool) (e : ErrCode) : (s.reject isRead e).ridx = s.ridx := rfl
@[simp] theorem State.reject_mode (isRead : Bool) (e : ErrCode) : (s.reject isRead e).mode = s.mode := rfl
@[simp] theorem State.reject_fault (isRead : Bool) (e : ErrCode) : (s.reject isRead e).fault = (s.fault <|> some e) := rfl
@[simp] theorem State.reject_resetSeen (isRead : Bool) (e : ErrCode) : (s.reject isRead e).resetSeen = s.resetSeen := rfl
@[simp] theorem State.reject_din (isRead : Bool) (e : ErrCode) : (s.reject isRead e).din = s.din := rfl
@[simp] theorem State.reject_resp (isRead : Bool) (e : ErrCode) : (s.reject isRead e).resp = if isRead then .rejectedRead else .silent := rfl
@[simp] theorem State.reject_host (isRead : Bool) (e : ErrCode) : (s.reject isRead e).host = s.host := rfl
@[simp] theorem State.reject_losses (isRead : Bool) (e : ErrCode) : (s.reject isRead e).losses = s.losses := rfl

/-! State.finishPerm -/

@[simp] theorem State.finishPerm_lanes : (s.finishPerm).lanes = s.lanes := rfl
@[simp] theorem State.finishPerm_busy : (s.finishPerm).busy = false := rfl
@[simp] theorem State.finishPerm_done : (s.finishPerm).done = true := rfl
@[simp] theorem State.finishPerm_lastMode : (s.finishPerm).lastMode = s.lastMode := rfl
@[simp] theorem State.finishPerm_err : (s.finishPerm).err = s.err := rfl
@[simp] theorem State.finishPerm_errcode : (s.finishPerm).errcode = s.errcode := rfl
@[simp] theorem State.finishPerm_ridx : (s.finishPerm).ridx = s.ridx := rfl
@[simp] theorem State.finishPerm_mode : (s.finishPerm).mode = s.mode := rfl
@[simp] theorem State.finishPerm_fault : (s.finishPerm).fault = s.fault := rfl
@[simp] theorem State.finishPerm_resetSeen : (s.finishPerm).resetSeen = s.resetSeen := rfl
@[simp] theorem State.finishPerm_din : (s.finishPerm).din = s.din := rfl
@[simp] theorem State.finishPerm_resp : (s.finishPerm).resp = s.resp := rfl
@[simp] theorem State.finishPerm_host : (s.finishPerm).host = s.host := rfl
@[simp] theorem State.finishPerm_losses : (s.finishPerm).losses = s.losses := rfl

/-! State.nextRound -/

@[simp] theorem State.nextRound_lanes : (s.nextRound).lanes = s.lanes := rfl
@[simp] theorem State.nextRound_busy : (s.nextRound).busy = s.busy := rfl
@[simp] theorem State.nextRound_done : (s.nextRound).done = s.done := rfl
@[simp] theorem State.nextRound_lastMode : (s.nextRound).lastMode = s.lastMode := rfl
@[simp] theorem State.nextRound_err : (s.nextRound).err = s.err := rfl
@[simp] theorem State.nextRound_errcode : (s.nextRound).errcode = s.errcode := rfl
@[simp] theorem State.nextRound_ridx : (s.nextRound).ridx = s.ridx + 1 := rfl
@[simp] theorem State.nextRound_mode : (s.nextRound).mode = s.mode := rfl
@[simp] theorem State.nextRound_fault : (s.nextRound).fault = s.fault := rfl
@[simp] theorem State.nextRound_resetSeen : (s.nextRound).resetSeen = s.resetSeen := rfl
@[simp] theorem State.nextRound_din : (s.nextRound).din = s.din := rfl
@[simp] theorem State.nextRound_resp : (s.nextRound).resp = s.resp := rfl
@[simp] theorem State.nextRound_host : (s.nextRound).host = s.host := rfl
@[simp] theorem State.nextRound_losses : (s.nextRound).losses = s.losses := rfl

/-! State.applyReset -/

@[simp] theorem State.applyReset_lanes : (s.applyReset).lanes = State.reset.lanes := rfl
@[simp] theorem State.applyReset_busy : (s.applyReset).busy = State.reset.busy := rfl
@[simp] theorem State.applyReset_done : (s.applyReset).done = State.reset.done := rfl
@[simp] theorem State.applyReset_lastMode : (s.applyReset).lastMode = State.reset.lastMode := rfl
@[simp] theorem State.applyReset_err : (s.applyReset).err = State.reset.err := rfl
@[simp] theorem State.applyReset_errcode : (s.applyReset).errcode = State.reset.errcode := rfl
@[simp] theorem State.applyReset_ridx : (s.applyReset).ridx = State.reset.ridx := rfl
@[simp] theorem State.applyReset_mode : (s.applyReset).mode = State.reset.mode := rfl
@[simp] theorem State.applyReset_fault : (s.applyReset).fault = s.fault := rfl
@[simp] theorem State.applyReset_resetSeen : (s.applyReset).resetSeen = State.reset.resetSeen := rfl
@[simp] theorem State.applyReset_din : (s.applyReset).din = State.reset.din := rfl
@[simp] theorem State.applyReset_resp : (s.applyReset).resp = State.reset.resp := rfl
@[simp] theorem State.applyReset_host : (s.applyReset).host = s.host := rfl
@[simp] theorem State.applyReset_losses : (s.applyReset).losses = s.losses := rfl

/-! State.applyPowerLoss -/

@[simp] theorem State.applyPowerLoss_lanes : (s.applyPowerLoss).lanes = (Config.powerUp s.losses).lanes := rfl
@[simp] theorem State.applyPowerLoss_busy : (s.applyPowerLoss).busy = (Config.powerUp s.losses).busy := rfl
@[simp] theorem State.applyPowerLoss_done : (s.applyPowerLoss).done = (Config.powerUp s.losses).done := rfl
@[simp] theorem State.applyPowerLoss_lastMode : (s.applyPowerLoss).lastMode = (Config.powerUp s.losses).lastMode := rfl
@[simp] theorem State.applyPowerLoss_err : (s.applyPowerLoss).err = (Config.powerUp s.losses).err := rfl
@[simp] theorem State.applyPowerLoss_errcode : (s.applyPowerLoss).errcode = (Config.powerUp s.losses).errcode := rfl
@[simp] theorem State.applyPowerLoss_ridx : (s.applyPowerLoss).ridx = (Config.powerUp s.losses).ridx := rfl
@[simp] theorem State.applyPowerLoss_mode : (s.applyPowerLoss).mode = (Config.powerUp s.losses).mode := rfl
@[simp] theorem State.applyPowerLoss_fault : (s.applyPowerLoss).fault = s.fault := rfl
@[simp] theorem State.applyPowerLoss_resetSeen : (s.applyPowerLoss).resetSeen = false := rfl
@[simp] theorem State.applyPowerLoss_din : (s.applyPowerLoss).din = s.din := rfl
@[simp] theorem State.applyPowerLoss_resp : (s.applyPowerLoss).resp = .silent := rfl
@[simp] theorem State.applyPowerLoss_host : (s.applyPowerLoss).host = s.host := rfl
@[simp] theorem State.applyPowerLoss_losses : (s.applyPowerLoss).losses = s.losses + 1 := rfl

/-! State.reset: the values of 10_state.md R30, and the model's own choices (log entries 2, 4, 5, 6, 10) -/

@[simp] theorem State.reset_lanes : State.reset.lanes = Vector.replicate 25 0 := rfl
@[simp] theorem State.reset_busy : State.reset.busy = false := rfl
@[simp] theorem State.reset_done : State.reset.done = false := rfl
@[simp] theorem State.reset_lastMode : State.reset.lastMode = false := rfl
@[simp] theorem State.reset_err : State.reset.err = false := rfl
@[simp] theorem State.reset_errcode : State.reset.errcode = 0 := rfl
@[simp] theorem State.reset_ridx : State.reset.ridx = 0 := rfl
@[simp] theorem State.reset_mode : State.reset.mode = .full := rfl
@[simp] theorem State.reset_fault : State.reset.fault = none := rfl
@[simp] theorem State.reset_resetSeen : State.reset.resetSeen = true := rfl
@[simp] theorem State.reset_din : State.reset.din = 0 := rfl
@[simp] theorem State.reset_resp : State.reset.resp = .silent := rfl
@[simp] theorem State.reset_host : State.reset.host = [] := rfl
@[simp] theorem State.reset_losses : State.reset.losses = 0 := rfl

/-! The status word reads five fields only. -/

@[simp] theorem State.answer_status (r : Response) : (s.answer r).status = s.status := rfl
@[simp] theorem State.withLanes_status (A : Lanes) : (s.withLanes A).status = s.status := rfl
@[simp] theorem State.withHost_status (es : List HostEvent) : (s.withHost es).status = s.status := rfl
@[simp] theorem State.withDin_status (d : Word) : (s.withDin d).status = s.status := rfl
@[simp] theorem State.nextRound_status : s.nextRound.status = s.status := rfl

end Sys2Proof.Machine
end

