-- ==== Sys2Proof/Laws/Commands.lean ====
section
/-! SUPPORT. What a command, an event and a step can do, said once: later proofs cite these and unfold nothing. -/

namespace Sys2Proof.Machine

/-- Everything `runCommand` can do: refuse before the first reset, reject with the operand's error or the busy hazard, or
perform. -/
theorem runCommand_cases {α : Type} (s : State) (c : CommandClass) (operand : Except ErrCode α) (perform : α → State) :
    (s.resetSeen = false ∧ runCommand s c operand perform = .refused .beforeReset) ∨
    (s.resetSeen = true ∧ ∃ e, (operand = .error e ∨ (e = .busyHazard ∧ s.busy = true ∧ c.runsWhileBusy = false)) ∧
      runCommand s c operand perform = .next (s.reject c.isRead e)) ∨
    (s.resetSeen = true ∧ (s.busy = false ∨ c.runsWhileBusy = true) ∧
      ∃ a, operand = .ok a ∧ runCommand s c operand perform = .next (perform a)) := by
  cases hr : s.resetSeen
  · exact .inl ⟨rfl, by simp [runCommand, hr]⟩
  · cases operand with
    | error e => exact .inr (.inl ⟨rfl, e, .inl rfl, by simp [runCommand, hr]⟩)
    | ok a =>
      by_cases hb : s.busy ∧ c.runsWhileBusy = false
      · exact .inr (.inl ⟨rfl, .busyHazard, .inr ⟨rfl, hb⟩, by simp [runCommand, hr, hb]⟩)
      · refine .inr (.inr ⟨rfl, ?_, a, rfl, by simp [runCommand, hr, hb]⟩)
        cases h : s.busy <;> cases h' : c.runsWhileBusy <;> simp_all

/-- A command runs: the block has been reset, the operand is in range, and nothing runs or the command may run beside it. -/
theorem runCommand_perform {α : Type} {s : State} {c : CommandClass} {a : α} {perform : α → State}
    (hr : s.resetSeen = true) (hb : s.busy = false ∨ c.runsWhileBusy = true) :
    runCommand s c (.ok a) perform = .next (perform a) := by
  rcases hb with hb | hb <;> simp [runCommand, hr, hb]

theorem runCommand_range {α : Type} {s : State} {c : CommandClass} {e : ErrCode} {perform : α → State}
    (hr : s.resetSeen = true) : runCommand s c (.error e) perform = .next (s.reject c.isRead e) := by
  simp [runCommand, hr]

theorem runCommand_busy {α : Type} {s : State} {c : CommandClass} {a : α} {perform : α → State}
    (hr : s.resetSeen = true) (hb : s.busy = true) (hc : c.runsWhileBusy = false) :
    runCommand s c (.ok a) perform = .next (s.reject c.isRead .busyHazard) := by
  simp [runCommand, hr, hb, hc]

/-! Each command as what `runCommand` makes of it. -/

theorem exec_laneWr (x y : BitVec 3) (s : State) : exec (.laneWr x y) s = runCommand s .codecWrite (laneOperand x y)
    fun p => (s.withLanes (setLane s.lanes p.1 p.2 s.din)).answer .silent := rfl

theorem exec_laneRd (x y : BitVec 3) (s : State) : exec (.laneRd x y) s = runCommand s .codecRead (laneOperand x y)
    fun p => s.answer (.data (laneAt s.lanes p.1 p.2)) := rfl

theorem exec_byteWr (ofs d : BitVec 8) (s : State) : exec (.byteWr ofs d) s = runCommand s .codecWrite (byteOperand ofs)
    fun k => (s.withLanes (writeByte s.lanes k d)).answer .silent := rfl

theorem exec_byteRd (ofs : BitVec 8) (s : State) : exec (.byteRd ofs) s = runCommand s .codecRead (byteOperand ofs)
    fun k => s.answer (.data ((readByte s.lanes k).setWidth 64)) := rfl

theorem exec_permFull (s : State) : exec .permFull s = runCommand s .perm (.ok ())
    fun _ => (s.startPerm .full).answer .silent := rfl

theorem exec_permHalf (s : State) : exec .permHalf s = runCommand s .perm (.ok ())
    fun _ => (s.startPerm .half).answer .silent := rfl

theorem exec_statusRd (s : State) : exec .statusRd s = runCommand s .status (.ok ())
    fun _ => s.answer (.data s.status) := rfl

/-- What each accepted command does to a state (40_codec.md R62 to R65, 42_sequencer.md R85, R86, R90). -/
inductive Effect (s : State) : Instr → State → Prop where
  | laneWr (x y : BitVec 3) (p : Fin 5 × Fin 5) (ok : laneOperand x y = .ok p) (idle : s.busy = false) :
      Effect s (.laneWr x y) ((s.withLanes (setLane s.lanes p.1 p.2 s.din)).answer .silent)
  | laneRd (x y : BitVec 3) (p : Fin 5 × Fin 5) (ok : laneOperand x y = .ok p) (idle : s.busy = false) :
      Effect s (.laneRd x y) (s.answer (.data (laneAt s.lanes p.1 p.2)))
  | byteWr (ofs d : BitVec 8) (k : Fin 200) (ok : byteOperand ofs = .ok k) (idle : s.busy = false) :
      Effect s (.byteWr ofs d) ((s.withLanes (writeByte s.lanes k d)).answer .silent)
  | byteRd (ofs : BitVec 8) (k : Fin 200) (ok : byteOperand ofs = .ok k) (idle : s.busy = false) :
      Effect s (.byteRd ofs) (s.answer (.data ((readByte s.lanes k).setWidth 64)))
  | permFull (idle : s.busy = false) : Effect s .permFull ((s.startPerm .full).answer .silent)
  | permHalf (idle : s.busy = false) : Effect s .permHalf ((s.startPerm .half).answer .silent)
  | statusRd : Effect s .statusRd (s.answer (.data s.status))

/-- Why a decoded command is rejected: an operand out of range, or the busy hazard (60_exceptions.md R97). -/
abbrev RejectCause (i : Instr) (s : State) (e : ErrCode) : Prop :=
  i.wellFormed = false ∨ (e = .busyHazard ∧ s.busy = true ∧ i ≠ .statusRd)

theorem laneOperand_error_iff {x y : BitVec 3} {e : ErrCode} (h : laneOperand x y = .error e) :
    (coordOk x && coordOk y) = false := by
  rcases laneOperand_cases x y with ⟨_, _, h'⟩ | ⟨hr, _⟩
  · rw [h'] at h; cases h
  · rcases hr with hr | hr <;> simp [coordOk] <;> omega

theorem byteOperand_error_iff {ofs : BitVec 8} {e : ErrCode} (h : byteOperand ofs = .error e) : offsetOk ofs = false := by
  rcases byteOperand_cases ofs with ⟨_, h'⟩ | ⟨hr, _⟩
  · rw [h'] at h; cases h
  · simp [offsetOk]; omega

/-- Everything `exec` can do: refuse before the first reset, reject for a cause, or take effect. -/
theorem exec_cases (i : Instr) (s : State) :
    (s.resetSeen = false ∧ exec i s = .refused .beforeReset) ∨
    (s.resetSeen = true ∧ ∃ r e, RejectCause i s e ∧ exec i s = .next (s.reject r e)) ∨
    (s.resetSeen = true ∧ ∃ t, Effect s i t ∧ exec i s = .next t) := by
  have lift : ∀ {α : Type} (c : CommandClass) (op : Except ErrCode α) (f : α → State),
      (∀ e, op = .error e → i.wellFormed = false) → (c.runsWhileBusy = false → i ≠ .statusRd) →
      (∀ a, op = .ok a → (s.busy = false ∨ c.runsWhileBusy = true) → Effect s i (f a)) →
      exec i s = runCommand s c op f →
      (s.resetSeen = false ∧ exec i s = .refused .beforeReset) ∨
      (s.resetSeen = true ∧ ∃ r e, RejectCause i s e ∧ exec i s = .next (s.reject r e)) ∨
      (s.resetSeen = true ∧ ∃ t, Effect s i t ∧ exec i s = .next t) := by
    intro α c op f he hc hf h
    rw [h]
    rcases runCommand_cases s c op f with h | ⟨hr, e, hw, h⟩ | ⟨hr, hb, a, ha, h⟩
    · exact .inl h
    · refine .inr (.inl ⟨hr, _, e, ?_, h⟩)
      rcases hw with hw | ⟨h1, h2, h3⟩
      · exact .inl (he e hw)
      · exact .inr ⟨h1, h2, hc h3⟩
    · exact .inr (.inr ⟨hr, _, hf a ha hb, h⟩)
  have idle : ∀ {c : CommandClass}, c.runsWhileBusy = false → (s.busy = false ∨ c.runsWhileBusy = true) → s.busy = false :=
    fun hc hb => hb.resolve_right (by simp [hc])
  cases i with
  | laneWr x y =>
    exact lift _ _ _ (fun _ => laneOperand_error_iff) (by simp) (fun p hp hb => .laneWr x y p hp (idle rfl hb)) (exec_laneWr x y s)
  | laneRd x y =>
    exact lift _ _ _ (fun _ => laneOperand_error_iff) (by simp) (fun p hp hb => .laneRd x y p hp (idle rfl hb)) (exec_laneRd x y s)
  | byteWr o d =>
    exact lift _ _ _ (fun _ => byteOperand_error_iff) (by simp) (fun k hk hb => .byteWr o d k hk (idle rfl hb)) (exec_byteWr o d s)
  | byteRd o =>
    exact lift _ _ _ (fun _ => byteOperand_error_iff) (by simp) (fun k hk hb => .byteRd o k hk (idle rfl hb)) (exec_byteRd o s)
  | permFull => exact lift _ _ _ (by simp) (by simp) (fun _ _ hb => .permFull (idle rfl hb)) (exec_permFull s)
  | permHalf => exact lift _ _ _ (by simp) (by simp) (fun _ _ hb => .permHalf (idle rfl hb)) (exec_permHalf s)
  | statusRd => exact lift _ _ _ (by simp) (by simp [CommandClass.runsWhileBusy]) (fun _ _ _ => .statusRd) (exec_statusRd s)

/-- The sequencer's step: one round of S, and completion after round 23 (42_sequencer.md R87, R88). -/
theorem seqStep_cases (s : State) :
    (s.ridx = 23 ∧ s.seqStep = (s.withLanes (keccakRound s.lanes s.ridx)).finishPerm) ∨
    (s.ridx ≠ 23 ∧ s.seqStep = (s.withLanes (keccakRound s.lanes s.ridx)).nextRound) := by
  by_cases h : s.ridx = 23 <;> simp [State.seqStep, h]

@[simp] theorem State.seqStep_lanes (s : State) : s.seqStep.lanes = keccakRound s.lanes s.ridx := by
  rcases seqStep_cases s with ⟨_, h⟩ | ⟨_, h⟩ <;> simp [h]

@[simp] theorem State.seqStep_busy (s : State) : s.seqStep.busy = (s.busy && decide (s.ridx ≠ 23)) := by
  rcases seqStep_cases s with ⟨h1, h⟩ | ⟨h1, h⟩ <;> simp [h, h1]

@[simp] theorem State.seqStep_host (s : State) : s.seqStep.host = s.host := by
  rcases seqStep_cases s with ⟨_, h⟩ | ⟨_, h⟩ <;> simp [h]

@[simp] theorem State.seqStep_fault (s : State) : s.seqStep.fault = s.fault := by
  rcases seqStep_cases s with ⟨_, h⟩ | ⟨_, h⟩ <;> simp [h]

@[simp] theorem State.seqStep_resetSeen (s : State) : s.seqStep.resetSeen = s.resetSeen := by
  rcases seqStep_cases s with ⟨_, h⟩ | ⟨_, h⟩ <;> simp [h]

/-- A quiet slot is a sequencer step or nothing. -/
theorem quietSlot_cases (s : State) :
    (s.busy = true ∧ s.quietSlot = s.seqStep) ∨ (s.busy = false ∧ s.quietSlot = s) := by
  cases h : s.busy <;> simp [State.quietSlot, h]

/-- Why a command on the port is rejected: its word is no command, or the decoded command has a cause. -/
abbrev PortCause (c : Command) (s : State) (e : ErrCode) : Prop :=
  decode c.word = .error e ∨ ∃ i, decode c.word = .ok i ∧ RejectCause i s e

/-- Everything a command on the port can do: refuse before the first reset, be rejected for a cause, or take effect. -/
theorem issueCommand_cases (c : Command) (s : State) :
    (s.resetSeen = false ∧ issueCommand c s = .refused .beforeReset) ∨
    (s.resetSeen = true ∧ ∃ r e, PortCause c s e ∧ issueCommand c s = .next ((s.withDin c.din).reject r e)) ∨
    (s.resetSeen = true ∧ ∃ i t, decode c.word = .ok i ∧ Effect (s.withDin c.din) i t ∧ issueCommand c s = .next t) := by
  unfold issueCommand
  cases hd : decode c.word with
  | ok i =>
    rcases exec_cases i (s.withDin c.din) with ⟨hr, h⟩ | ⟨hr, r, e, hc, h⟩ | ⟨hr, t, ht, h⟩
    · exact .inl ⟨hr, h⟩
    · exact .inr (.inl ⟨hr, r, e, .inr ⟨i, hd, hc⟩, h⟩)
    · exact .inr (.inr ⟨hr, i, t, rfl, ht, h⟩)
  | error e =>
    cases hr : s.resetSeen
    · exact .inl ⟨rfl, by simp [rejectWord, hr]⟩
    · exact .inr (.inl ⟨rfl, _, e, .inl hd, by simp [rejectWord, hr]; rfl⟩)

theorem slot_cons {s : State} {e : HostEvent} {es : List HostEvent} (h : s.host = e :: es) :
    slot s = hostEvent e (s.withHost es) := by
  simp [slot, h]

theorem slot_nil {s : State} (h : s.host = []) : slot s = .next s.quietSlot := by
  simp [slot, h]

theorem resetNext_congr {s s' : State} (h : s.host = s'.host) : resetNext s = resetNext s' := by
  unfold resetNext; rw [h]

/-- Whether a run has stopped depends on the host's next event and on the record only. -/
theorem stoppedBy_congr {v : View} {s s' : State} (hh : s.host = s'.host) (hf : s.fault = s'.fault) :
    stoppedBy v s = stoppedBy v s' := by
  simp only [stoppedBy, resetNext_congr hh, hf]

/-- Everything that a view makes of a slot: the model's stops at a recorded rejection, unless a reset comes next. -/
theorem stepIn_cases (v : View) (s : State) :
    (∃ e, v = .model ∧ resetNext s = false ∧ s.fault = some e ∧ stepIn v s = .fault (.rejected e)) ∨
    ((v = .hardware ∨ resetNext s = true ∨ s.fault = none) ∧ stepIn v s = slot s) := by
  cases v with
  | hardware => exact .inr ⟨.inl rfl, rfl⟩
  | model =>
    cases hr : resetNext s
    · cases hf : s.fault with
      | none => exact .inr ⟨.inr (.inr rfl), by simp [stepIn, stoppedBy, hr, hf]⟩
      | some e => exact .inl ⟨e, rfl, rfl, rfl, by simp [stepIn, stoppedBy, hr, hf]⟩
    · exact .inr ⟨.inr (.inl rfl), by simp [stepIn, stoppedBy, hr]⟩

/-- A run that has not stopped takes the block's slot. -/
theorem stepIn_going {v : View} {s : State} (h : v = .hardware ∨ s.fault = none) : stepIn v s = slot s := by
  rcases stepIn_cases v s with ⟨e, hv, _, hf, _⟩ | ⟨_, h'⟩
  · subst hv; rw [hf] at h; rcases h with h | h <;> cases h
  · exact h'

/-- A reset is taken in every state, a stopped run's too (70_reset_and_hazards.md R107). -/
theorem stepIn_reset {v : View} {s : State} {lost : Option Command} {es : List HostEvent} (h : s.host = .reset lost :: es) :
    stepIn v s = .next (s.withHost es).applyReset := by
  rcases stepIn_cases v s with ⟨e, _, hr, _, _⟩ | ⟨_, h'⟩
  · simp [resetNext, h] at hr
  · rw [h', slot_cons h]; rfl

/-- A next state in a view is the slot's next state. -/
theorem slot_of_stepIn {v : View} {s t : State} (h : stepIn v s = .next t) : slot s = .next t := by
  rcases stepIn_cases v s with ⟨_, _, _, _, h'⟩ | ⟨_, h'⟩
  · rw [h'] at h; cases h
  · rw [← h', h]

/-- The next slot is quiet, and `es` is what the host does after it. -/
abbrev QuietNext (s : State) (es : List HostEvent) : Prop := s.host = [] ∧ es = [] ∨ s.host = .quiet :: es

/-- Everything a slot that answers a next state can have been. -/
inductive StepTo (s : State) : State → Prop where
  | seq (es : List HostEvent) (busy : s.busy = true) : QuietNext s es → StepTo s (s.withHost es).seqStep
  | idle (es : List HostEvent) (idle : s.busy = false) : QuietNext s es → StepTo s (s.withHost es)
  | rejected (es : List HostEvent) (c : Command) (r : Bool) (e : ErrCode) (seen : s.resetSeen = true)
      (cause : PortCause c s e) : s.host = .issue c :: es → StepTo s (((s.withHost es).withDin c.din).reject r e)
  | performed (es : List HostEvent) (c : Command) (i : Instr) (t : State) (seen : s.resetSeen = true)
      (command : decode c.word = .ok i) : s.host = .issue c :: es → Effect ((s.withHost es).withDin c.din) i t → StepTo s t
  | reset (es : List HostEvent) (lost : Option Command) :
      s.host = .reset lost :: es → StepTo s (s.withHost es).applyReset
  | power (es : List HostEvent) : s.host = .powerLoss :: es → StepTo s (s.withHost es).applyPowerLoss

/-- `slot` never faults, and a next state is one of the cases of `StepTo`. -/
theorem slot_cases (s : State) :
    (s.resetSeen = false ∧ slot s = .refused .beforeReset) ∨ ∃ t, slot s = .next t ∧ StepTo s t := by
  have quiet : ∀ es, QuietNext s es → StepTo s (s.withHost es).quietSlot := by
    intro es hq
    rcases quietSlot_cases (s.withHost es) with ⟨hb, h⟩ | ⟨hb, h⟩
    · rw [h]; exact .seq es (by simpa using hb) hq
    · rw [h]; exact .idle es (by simpa using hb) hq
  unfold slot
  split
  · rename_i h
    have hs : s.withHost [] = s := by cases s; simp_all [State.withHost]
    exact .inr ⟨_, rfl, hs ▸ quiet [] (.inl ⟨h, rfl⟩)⟩
  · rename_i e es h
    cases e with
    | issue c =>
      rcases issueCommand_cases c (s.withHost es) with ⟨hr, he⟩ | ⟨hr, r, e, hc, he⟩ | ⟨hr, i, t, hd, ht, he⟩
      · exact .inl ⟨by simpa using hr, he⟩
      · exact .inr ⟨_, he, .rejected es c r e (by simpa using hr) hc h⟩
      · exact .inr ⟨_, he, .performed es c i t (by simpa using hr) hd h ht⟩
    | quiet => exact .inr ⟨_, rfl, quiet es (.inr h)⟩
    | reset lost => exact .inr ⟨_, rfl, .reset es lost h⟩
    | powerLoss => exact .inr ⟨_, rfl, .power es h⟩

/-- The inversion of a step in either view: if it answers `t`, one of the cases of `StepTo` holds. -/
theorem stepIn_inv {v : View} {s t : State} (h : stepIn v s = .next t) : StepTo s t := by
  rcases slot_cases s with ⟨_, h'⟩ | ⟨t', h', ht⟩
  · rw [slot_of_stepIn h] at h'; cases h'
  · rw [slot_of_stepIn h] at h'; cases h'; exact ht

end Sys2Proof.Machine
end

