-- ==== Sys2Proof/Laws/Flags.lean ====
section
/-! SUPPORT. The status word, bit by bit (10_state.md R19), and the error codes (60_exceptions.md R94). -/

namespace Sys2Proof.Machine

theorem errorCode_inj {e e' : ErrCode} : errorCode e = errorCode e' ↔ e = e' := by
  cases e <;> cases e' <;> decide

theorem errorCode_ne_zero (e : ErrCode) : errorCode e ≠ 0 := by cases e <;> decide

theorem errorCode_le (e : ErrCode) : (errorCode e).toNat ≤ 5 := by cases e <;> decide

theorem statusWord_busy (b d l e : Bool) (c : BitVec 3) : (statusWord b d l e c).getLsbD 0 = b := by
  revert b d l e c; decide

theorem statusWord_done (b d l e : Bool) (c : BitVec 3) : (statusWord b d l e c).getLsbD 1 = d := by
  revert b d l e c; decide

theorem statusWord_lastMode (b d l e : Bool) (c : BitVec 3) : (statusWord b d l e c).getLsbD 2 = l := by
  revert b d l e c; decide

theorem statusWord_err (b d l e : Bool) (c : BitVec 3) : (statusWord b d l e c).getLsbD 8 = e := by
  revert b d l e c; decide

theorem statusWord_errcode (b d l e : Bool) (c : BitVec 3) : (statusWord b d l e c).extractLsb' 9 3 = c := by
  revert b d l e c; decide

end Sys2Proof.Machine
end

