-- ==== Sys2Proof/Laws/Lanes.lean ====
section
/-! SUPPORT. The lane array read by coordinate and by byte: one lemma per operation of Machine/Lanes.lean. -/

namespace Sys2Proof.Machine

@[simp] theorem laneAt_ofLanes (f : Fin 5 → Fin 5 → Word) (x y : Fin 5) : laneAt (ofLanes f) x y = f x y := by
  fin_cases x <;> fin_cases y <;> rfl

theorem laneIndex_inj {x y x' y' : Fin 5} : laneIndex x y = laneIndex x' y' ↔ x = x' ∧ y = y' := by
  simp only [laneIndex, Fin.ext_iff]; omega

/-- Two arrays with the same lanes are the same array (10_state.md R15: no lane aliases another). -/
theorem lanes_ext {A B : Lanes} (h : ∀ x y, laneAt A x y = laneAt B x y) : A = B := by
  apply Vector.ext
  intro i hi
  have := h ⟨i % 5, by omega⟩ ⟨i / 5, by omega⟩
  simpa [laneAt, laneIndex, Vector.get_eq_getElem, Nat.mod_add_div] using this

theorem laneAt_setLane (A : Lanes) (x y x' y' : Fin 5) (v : Word) :
    laneAt (setLane A x y v) x' y' = if x = x' ∧ y = y' then v else laneAt A x' y' := by
  simp only [laneAt, setLane, Vector.get_eq_getElem, Vector.getElem_set]
  simp only [← Fin.ext_iff, laneIndex_inj]

@[simp] theorem laneAt_setLane_same (A : Lanes) (x y : Fin 5) (v : Word) : laneAt (setLane A x y v) x y = v := by
  simp [laneAt_setLane]

theorem laneAt_setLane_ne {A : Lanes} {x y x' y' : Fin 5} {v : Word} (h : ¬ (x = x' ∧ y = y')) :
    laneAt (setLane A x y v) x' y' = laneAt A x' y' := by
  simp [laneAt_setLane, h]

@[simp] theorem byteX_byteOffset (x y : Fin 5) (j : Fin 8) : byteX (byteOffset x y j) = x := by
  simp only [byteX, byteOffset, Fin.ext_iff]; omega

@[simp] theorem byteY_byteOffset (x y : Fin 5) (j : Fin 8) : byteY (byteOffset x y j) = y := by
  simp only [byteY, byteOffset, Fin.ext_iff]; omega

@[simp] theorem byteShift_byteOffset (x y : Fin 5) (j : Fin 8) : byteShift (byteOffset x y j) = 8 * j.val := by
  simp only [byteShift, byteOffset]; omega

/-- Every state byte is byte j of some lane (20_memory.md R32). -/
theorem byteOffset_cover (k : Fin 200) : ∃ j : Fin 8, byteOffset (byteX k) (byteY k) j = k :=
  ⟨⟨k.val % 8, by omega⟩, by simp only [byteX, byteY, byteOffset, Fin.ext_iff]; omega⟩

theorem byteShift_lt (k : Fin 200) : byteShift k < 64 ∧ byteShift k % 8 = 0 := by
  simp only [byteShift]; omega

/-- Bit b of the byte written to is the written byte's inside the byte's place, and unchanged outside (20_memory.md R32). -/
theorem getLsbD_insertByte (w : Word) (v : Byte) (sh b : Nat) (hb : b < 64) :
    ((w &&& ~~~((0xFF : Word) <<< sh)) ||| (v.setWidth 64 <<< sh)).getLsbD b =
      if sh ≤ b ∧ b < sh + 8 then v.getLsbD (b - sh) else w.getLsbD b := by
  have hff : ∀ n, (0xFF : Word).getLsbD n = decide (n < 8) := by
    intro n
    rw [show (0xFF : Word) = (BitVec.allOnes 8).setWidth 64 from rfl, BitVec.getLsbD_setWidth, BitVec.getLsbD_allOnes]
    by_cases h : n < 8 <;> simp [h]; omega
  have hv : ∀ n, 8 ≤ n → v.getLsbD n = false := fun n hn => BitVec.getLsbD_of_ge v n hn
  simp only [BitVec.getLsbD_or, BitVec.getLsbD_and, BitVec.getLsbD_not, BitVec.getLsbD_shiftLeft, BitVec.getLsbD_setWidth,
    hff, hb, decide_true, Bool.true_and]
  by_cases h1 : sh ≤ b
  · by_cases h2 : b < sh + 8
    · simp [h1, h2, Nat.not_lt.2 h1, show b - sh < 8 by omega, show b - sh < 64 by omega]
    · simp [h2, show ¬ b - sh < 8 by omega, hv (b - sh) (by omega)]
  · simp [h1, Nat.lt_of_not_le h1]

/-- A byte write, read back a bit at a time. -/
theorem getLsbD_writeByte (A : Lanes) (k : Fin 200) (v : Byte) (b : Nat) (hb : b < 64) :
    (laneAt (writeByte A k v) (byteX k) (byteY k)).getLsbD b =
      if byteShift k ≤ b ∧ b < byteShift k + 8 then v.getLsbD (b - byteShift k)
      else (laneAt A (byteX k) (byteY k)).getLsbD b := by
  simp only [writeByte, laneAt_setLane_same]
  exact getLsbD_insertByte _ _ _ _ hb

theorem laneAt_writeByte_ne {A : Lanes} {k : Fin 200} {v : Byte} {x y : Fin 5} (h : ¬ (byteX k = x ∧ byteY k = y)) :
    laneAt (writeByte A k v) x y = laneAt A x y := laneAt_setLane_ne h

theorem getLsbD_readByte (A : Lanes) (k : Fin 200) (b : Nat) :
    (readByte A k).getLsbD b = (decide (b < 8) && (laneAt A (byteX k) (byteY k)).getLsbD (byteShift k + b)) := by
  simp [readByte, BitVec.getLsbD_extractLsb']

/-- Two arrays with the same bytes are the same array. -/
theorem lanes_ext_bytes {A B : Lanes} (h : ∀ k, readByte A k = readByte B k) : A = B := by
  apply lanes_ext
  intro x y
  apply BitVec.eq_of_getLsbD_eq
  intro b hb
  have hbit := congrArg (fun w => w.getLsbD (b % 8)) (h (byteOffset x y ⟨b / 8, by omega⟩))
  simp only [getLsbD_readByte, byteX_byteOffset, byteY_byteOffset, byteShift_byteOffset, show b % 8 < 8 by omega,
    decide_true, Bool.true_and, Nat.div_add_mod] at hbit
  exact hbit

/-! The cell list of 20_memory.md's one address space. -/

theorem mem_cells {A : Lanes} {c : Host.Cell} :
    c ∈ cells A ↔ ∃ k : Fin 200, readByte A k ≠ unlistedByte ∧ c = (k.val, readByte A k) := by
  simp only [cells, List.mem_filterMap, List.mem_finRange, true_and]
  constructor
  · rintro ⟨k, hk⟩
    by_cases h : readByte A k = unlistedByte
    · simp [h] at hk
    · simp only [h, if_false, Option.some.injEq] at hk
      exact ⟨k, h, hk.symm⟩
  · rintro ⟨k, h, rfl⟩
    exact ⟨k, by simp [h]⟩

/-- The cell list is in canonical form whatever the lanes hold, so every operation on the lanes keeps the form. -/
theorem cells_wf (A : Lanes) : Memory.wf (cells A) := by
  refine ⟨?_, ?_⟩
  · rw [List.pairwise_map, cells, List.pairwise_filterMap]
    have : (List.finRange 200).Pairwise (· < ·) := List.pairwise_lt_finRange 200
    refine this.imp ?_
    intro a b hab c hc d hd
    by_cases h1 : readByte A a = unlistedByte <;> simp [h1] at hc
    by_cases h2 : readByte A b = unlistedByte <;> simp [h2] at hd
    subst hc hd
    exact hab
  · intro c hc
    obtain ⟨k, h, rfl⟩ := mem_cells.1 hc
    exact ⟨k.isLt, h⟩

end Sys2Proof.Machine
end

