-- ==== Sys2Proof/Laws/PerInstr.lean ====
section
/-! SUPPORT. A fact of every command as syntax: its word matches its row of spec/opcode_table.json, whatever its operands. -/

namespace Sys2Proof.Laws.TableMatch

/-- The row's "mask": the bits the encoding fixes. -/
def rowMask : Instr → BitVec 32
  | .laneWr _ _ => 0xFFFF88FF
  | .laneRd _ _ => 0xFFFF88FF
  | .byteWr _ _ => 0xFFFF0000
  | .byteRd _ => 0xFFFF00FF
  | .permFull => 0xFFFFFFFF
  | .permHalf => 0xFFFFFFFF
  | .statusRd => 0xFFFFFFFF

/-- The row's "match": the value of those bits. -/
def rowMatch : Instr → BitVec 32
  | .laneWr _ _ => 0x01000000
  | .laneRd _ _ => 0x02000000
  | .byteWr _ _ => 0x03000000
  | .byteRd _ => 0x04000000
  | .permFull => 0x10000000
  | .permHalf => 0x10000001
  | .statusRd => 0x20000000

/-- The fixed bits of the command's word hold the row's values. -/
def Statement (i : Instr) : Prop := encode i &&& rowMask i = rowMatch i

theorem laneWr (x y : BitVec 3) : Statement (.laneWr x y) := by
  unfold Statement; revert x y; decide

theorem laneRd (x y : BitVec 3) : Statement (.laneRd x y) := by
  unfold Statement; revert x y; decide

theorem encodeByte_masked (o a b m : BitVec 8) : encodeByte o a b &&& (BitVec.allOnes 16 ++ 0#8 ++ m) = encodeByte o 0 (b &&& m) := by
  apply BitVec.eq_of_getLsbD_eq
  intro i hi
  simp only [encodeByte, BitVec.getLsbD_and, BitVec.getLsbD_append, BitVec.getLsbD_allOnes]
  by_cases h1 : i < 8
  · simp [h1]
  · by_cases h2 : i < 16
    · simp [h1, show i - 8 < 8 by omega]
    · simp [h1, show ¬ i - 8 < 8 by omega, show i - 8 - 8 < 16 by omega]

theorem byteWr (ofs data8 : BitVec 8) : Statement (.byteWr ofs data8) := by
  show encodeByte 0x03 ofs data8 &&& (BitVec.allOnes 16 ++ 0#8 ++ 0#8) = _
  rw [encodeByte_masked, BitVec.and_zero]; rfl

theorem byteRd (ofs : BitVec 8) : Statement (.byteRd ofs) := by
  show encodeByte 0x04 ofs 0 &&& (BitVec.allOnes 16 ++ 0#8 ++ 0xFF#8) = _
  rw [encodeByte_masked, show (0 : BitVec 8) &&& 0xFF#8 = 0 by decide]; rfl

theorem permFull : Statement .permFull := by unfold Statement; decide

theorem permHalf : Statement .permHalf := by unfold Statement; decide

theorem statusRd : Statement .statusRd := by unfold Statement; decide

end Sys2Proof.Laws.TableMatch
end

