-- ==== Sys2Proof/Laws/Round.lean ====
section
/-! SUPPORT. Each step of the round lane by lane (41_round.md R72 to R76), and the complemented form of a lane (R81). -/

namespace Sys2Proof.Machine

theorem laneAt_thetaStep (A : Lanes) (x y : Fin 5) : laneAt (thetaStep A) x y = laneAt A x y ^^^ thetaTerm A x := by
  simp [thetaStep]

theorem laneAt_rhoStep (A : Lanes) (x y : Fin 5) : laneAt (rhoStep A) x y = rol64 (laneAt A x y) (rot x y) := by
  simp [rhoStep]

theorem laneAt_piStep (A : Lanes) (x y : Fin 5) : laneAt (piStep A) x y = laneAt A (x + 3 * y) x := by
  simp [piStep]

theorem laneAt_chiStep (A : Lanes) (x y : Fin 5) :
    laneAt (chiStep A) x y = laneAt A x y ^^^ (~~~(laneAt A (x + 1) y) &&& laneAt A (x + 2) y) := by
  simp [chiStep]

theorem laneAt_iotaStep (A : Lanes) (i : Fin 24) (x y : Fin 5) :
    laneAt (iotaStep A i) x y = if 0 = x ∧ 0 = y then laneAt A 0 0 ^^^ rc i else laneAt A x y := by
  simp [iotaStep, laneAt_setLane]

theorem laneAt_complementLanes (set : LaneSet) (A : Lanes) (x y : Fin 5) :
    laneAt (complementLanes set A) x y = heldAs (set x y) (laneAt A x y) := by
  simp [complementLanes]

theorem heldAs_heldAs (f g : Bool) (v : Word) : heldAs f (heldAs g v) = heldAs (f ^^ g) v := by
  cases f <;> cases g <;> simp [heldAs]

/-- Exclusive-or carries the complements of both sides to its result. -/
theorem heldAs_xor_heldAs (f g : Bool) (v w : Word) : heldAs f v ^^^ heldAs g w = heldAs (f ^^ g) (v ^^^ w) := by
  apply BitVec.eq_of_getLsbD_eq
  intro b hb
  cases f <;> cases g <;> simp [heldAs, hb]

/-- A rotated lane keeps its form. -/
theorem rol64_heldAs (f : Bool) (v : Word) (n : Nat) (hn : n < 64) : rol64 (heldAs f v) n = heldAs f (rol64 v n) := by
  cases f
  · rfl
  · unfold rol64 heldAs
    by_cases h : n = 0
    · simp [h]
    · apply BitVec.eq_of_getLsbD_eq
      intro b hb
      by_cases hbn : b < n
      · simp [h, hb, hbn, show 64 - n + b < 64 by omega]
      · simp [h, hb, hbn, BitVec.getLsbD_of_ge v (64 - n + b) (by omega), show ¬ 64 - n + b < 64 by omega]

/-- Each form of the adapted term gives the plain one. -/
theorem adaptedTerm_heldAs (f g : Bool) (b c : Word) : adaptedTerm f g (heldAs f b) (heldAs g c) = ~~~b &&& c := by
  cases f <;> cases g <;> simp [adaptedTerm, heldAs, BitVec.not_or]

end Sys2Proof.Machine
end

