-- ==== Sys2Proof/Laws/Run.lean ====
section
/-! SUPPORT. Runs of several steps, and how two related runs stay related. -/

namespace Sys2Proof.Safety

open Sys2Proof.Machine

variable {v : View}

/-- In the model's view `runSteps` is the host's run of the core. -/
theorem runSteps_eq_core (n : Nat) (s : State) : runSteps .model n s = Host.Core.run core n s := by
  induction n generalizing s with
  | zero => rfl
  | succ n ih =>
    cases h : stepIn .model s with
    | next t =>
      have h' : core.step s = .next t := h
      simp only [runSteps, h, Host.Core.run, h']
      exact ih t
    | fault r =>
      have h' : core.step s = .fault r := h
      simp only [runSteps, h, Host.Core.run, h']; rfl
    | refused r =>
      have h' : core.step s = .refused r := h
      simp only [runSteps, h, Host.Core.run, h']; rfl

@[simp] theorem runSteps_zero (s : State) : runSteps v 0 s = .next s := rfl

theorem runSteps_step {n : Nat} {s t : State} (h : stepIn v s = .next t) : runSteps v (n + 1) s = runSteps v n t := by
  simp [runSteps, h]

theorem runSteps_add {n m : Nat} {s t : State} (h : runSteps v n s = .next t) : runSteps v (n + m) s = runSteps v m t := by
  induction n generalizing s with
  | zero => simp at h; rw [h, Nat.zero_add]
  | succ n ih =>
    rw [Nat.add_right_comm]
    cases hs : stepIn v s with
    | next s' => rw [runSteps_step hs] at h ⊢; exact ih h
    | fault r => simp [runSteps, hs] at h
    | refused r => simp [runSteps, hs] at h

@[simp] theorem responses_zero (s : State) : responses v 0 s = [] := rfl

theorem responses_step {n : Nat} {s t : State} (h : stepIn v s = .next t) : responses v (n + 1) s = t.response :: responses v n t := by
  simp [responses, h]

/-- All 25 responses present: the host has the lanes' bytes (20_memory.md R35). -/
theorem storedBytes_some (A : Lanes) : storedBytes (A.toList.map some) = some (encodeBytes A) := by
  have h : (A.toList.map some).mapM id = some A.toList := by
    generalize A.toList = l
    induction l with
    | nil => rfl
    | cons a l ih => simp [ih]
  have hA : (⟨A.toList.toArray, by simp⟩ : Lanes) = A := Vector.ext (by simp)
  simp only [storedBytes, h, Vector.length_toList, dite_true, hA]

/-- A property that one step keeps holds along every run. -/
theorem runSteps_keeps {P : State → Prop} (hP : ∀ s t, P s → stepIn v s = .next t → P t) {n : Nat} {s t : State}
    (hs : P s) (h : runSteps v n s = .next t) : P t := by
  induction n generalizing s with
  | zero => simp at h; exact h ▸ hs
  | succ n ih =>
    cases h' : stepIn v s with
    | next s' => rw [runSteps_step h'] at h; exact ih (hP s s' hs h') h
    | fault r => simp [runSteps, h'] at h
    | refused r => simp [runSteps, h'] at h

theorem agree_refl {r : State → State → Prop} (h : ∀ s, r s s) (o : Result) : Agree r o o := by
  cases o with
  | next t => exact h t
  | fault e => rfl
  | refused e => rfl

/-- Slots that agree make steps that agree, in either view, where the host's events and the record are the same. -/
theorem agree_stepIn {r : State → State → Prop} {s s' : State} (hh : s.host = s'.host) (hf : s.fault = s'.fault)
    (h : Agree r (slot s) (slot s')) : Agree r (stepIn v s) (stepIn v s') := by
  unfold stepIn
  rw [stoppedBy_congr hh hf]
  cases stoppedBy v s' with
  | none => exact h
  | some e => rfl

/-- A relation that one step keeps is kept along every pair of runs of the same length. -/
theorem runSteps_agree {r r' : State → State → Prop} (hr : ∀ s s', r s s' → Agree r (stepIn v s) (stepIn v s'))
    (hw : ∀ s s', r s s' → r' s s') (n : Nat) (s s' : State) (h : r s s') : Agree r' (runSteps v n s) (runSteps v n s') := by
  induction n generalizing s s' with
  | zero => exact hw s s' h
  | succ n ih =>
    have hst := hr s s' h
    simp only [runSteps]
    cases h1 : stepIn v s <;> cases h2 : stepIn v s' <;> rw [h1, h2] at hst <;>
      first | exact hst.elim | exact ih _ _ hst | exact hst

end Sys2Proof.Safety
end

