-- ==== Sys2Proof/Tests/Slice0.lean ====
section
/-! SUPPORT. Tests, their expected values from spec/95_test_vectors.md or by hand from the rules; and for each statement of
Certificates/Slice0/Obligations.lean that has hypotheses, a witness that meets them all. -/

namespace Sys2Proof.Tests

open Sys2Proof.Machine Sys2Proof.Safety

/-! ## Helpers -/

/-- The next state, if there is one. -/
def nextOf : Result → Option State
  | .next t => some t
  | .fault _ => none
  | .refused _ => none

/-- The fault, if the step ends in one. -/
def faultOf : Result → Option Fault
  | .next _ => none
  | .fault e => some e
  | .refused _ => none

/-- The host has just issued the word with the operand to the block, seen as the hardware, which goes on after a rejection: what the
vectors of 95_test_vectors.md say of STATUS after one is the hardware's. -/
def issued (s : State) (word : BitVec 32) (din : Word := 0) : Option State :=
  nextOf (stepIn .hardware (s.withHost [.issue ⟨word, din⟩]))

/-- The reset block with one lane set. -/
def withLane (x y : Fin 5) (v : Word) : State := State.reset.withLanes (setLane State.reset.lanes x y v)

/-- A block in the middle of a full permutation, its next round r. -/
def running (r : Fin 24) : State := { State.reset.startPerm .full with ridx := r }

/-- A lane array from its nonzero lanes, as spec/95_test_vectors.md lists them: lane index and value. -/
def lanesOf (l : List (Fin 25 × Word)) : Lanes := l.foldl (fun A p => A.set p.1.val p.2 p.1.isLt) State.reset.lanes

/-! ## Well-formedness: an ill-formed term for each check -/

theorem test_wf_laneWr_x : Instr.wellFormed (.laneWr 5 0) = false := by decide
theorem test_wf_laneWr_y : Instr.wellFormed (.laneWr 4 7) = false := by decide
theorem test_wf_laneRd_x : Instr.wellFormed (.laneRd 6 4) = false := by decide
theorem test_wf_laneRd_y : Instr.wellFormed (.laneRd 0 5) = false := by decide
theorem test_wf_byteWr : Instr.wellFormed (.byteWr 200 0) = false := by decide
theorem test_wf_byteRd : Instr.wellFormed (.byteRd 255) = false := by decide
theorem test_wf_accepts : (Instr.laneWr 4 4).wellFormed ∧ (Instr.laneRd 0 4).wellFormed ∧ (Instr.byteWr 199 255).wellFormed ∧
    (Instr.byteRd 199).wellFormed := by decide

/-! ## Decoding: words written out bit by bit from 30_encoding.md R49 to R52 -/

/-- R49: OPC 00000001, 000000000, Y 011, 0, X 001, 00000000. -/
theorem test_decode_laneWr : decode 0b00000001000000000011000100000000 = .ok (.laneWr 1 3) := by decide
/-- R49: Y 100, X 000. -/
theorem test_decode_laneRd : decode 0b00000010000000000100000000000000 = .ok (.laneRd 0 4) := by decide
/-- R50: OFS 10000111 (135), DATA8 10000000. -/
theorem test_decode_byteWr : decode 0b00000011000000001000011110000000 = .ok (.byteWr 135 0x80) := by decide
/-- R50: OFS 11000111 (199). -/
theorem test_decode_byteRd : decode 0b00000100000000001100011100000000 = .ok (.byteRd 199) := by decide
/-- R51: MODE 0. -/
theorem test_decode_permFull : decode 0b00010000000000000000000000000000 = .ok .permFull := by decide
/-- R51: MODE 1. -/
theorem test_decode_permHalf : decode 0b00010000000000000000000000000001 = .ok .permHalf := by decide
/-- R52. -/
theorem test_decode_statusRd : decode 0b00100000000000000000000000000000 = .ok .statusRd := by decide

/-- V-DEC-1 to V-DEC-5. -/
theorem test_decode_illegal :
    decode 0x00000000 = .error .illegalOpcode ∧ decode 0xFFFFFFFF = .error .illegalOpcode ∧
    decode 0x05000000 = .error .illegalOpcode ∧ decode 0x11000000 = .error .illegalOpcode ∧
    decode 0x21000000 = .error .illegalOpcode := by decide
/-- V-DEC-10 to V-DEC-13, 17, 19, 20, 23, 24, 26. -/
theorem test_decode_reserved :
    decode 0x01000800 = .error .reservedBits ∧ decode 0x01008000 = .error .reservedBits ∧
    decode 0x01000001 = .error .reservedBits ∧ decode 0x0100F800 = .error .reservedBits ∧
    decode 0x03010000 = .error .reservedBits ∧ decode 0x0400C701 = .error .reservedBits ∧
    decode 0x0401C800 = .error .reservedBits ∧ decode 0x10000002 = .error .reservedBits ∧
    decode 0x10800001 = .error .reservedBits ∧ decode 0x20000001 = .error .reservedBits := by decide
/-- V-DEC-7 to V-DEC-9. -/
theorem test_decode_laneRange :
    decode 0x01000500 = .error .laneRange ∧ decode 0x01005000 = .error .laneRange ∧
    decode 0x02007700 = .error .laneRange := by decide
/-- V-DEC-15, V-DEC-16. -/
theorem test_decode_byteRange :
    decode 0x0300C800 = .error .byteRange ∧ decode 0x0300FF00 = .error .byteRange := by decide

/-- R60: the encoder's words. -/
theorem test_encode : encode (.laneWr 1 3) = 0x01003100 ∧ encode (.laneRd 4 4) = 0x02004400 ∧ encode (.byteWr 135 0x80) = 0x03008780 ∧
    encode (.byteRd 8) = 0x04000800 ∧ encode .permFull = 0x10000000 ∧ encode .permHalf = 0x10000001 ∧
    encode .statusRd = 0x20000000 := by decide

/-! ## The codec commands -/

/-- V-CODEC-1: the lane written; V-CODEC-8: no other lane. -/
theorem test_laneWr : (issued State.reset 0x01000100 0x0123456789ABCDEF).map (fun t => (laneAt t.lanes 1 0, laneAt t.lanes 0 1, t.status)) =
    some (0x0123456789ABCDEF, 0, 0) := by decide
/-- V-CODEC-7: the second write replaces the first. -/
theorem test_laneWr_replaces : (issued (withLane 3 1 0x1111111111111111) 0x01001300 0x2222222222222222).map (fun t => laneAt t.lanes 3 1) =
    some 0x2222222222222222 := by decide
/-- V-CODEC-1. -/
theorem test_laneRd : (issued (withLane 1 0 0x0123456789ABCDEF) 0x02000100).map State.response = some (some 0x0123456789ABCDEF) := by decide
/-- V-DEC-27: din is ignored. -/
theorem test_laneRd_din : (issued State.reset 0x02000100 0xDEADBEEF).map State.response = some (some 0) := by decide
/-- V-CODEC-6: byte 4 of lane 12 cleared. -/
theorem test_byteWr : (issued (withLane 2 2 0xFFFFFFFFFFFFFFFF) 0x03006400).map (fun t => laneAt t.lanes 2 2) =
    some 0xFFFFFF00FFFFFFFF := by decide
/-- V-CODEC-5: the last byte of the space. -/
theorem test_byteWr_last : (issued State.reset 0x0300C7FF).map (fun t => laneAt t.lanes 4 4) = some 0xFF00000000000000 := by decide
/-- V-CODEC-2: byte 15 is the top byte of lane 1. -/
theorem test_byteRd : (issued (withLane 1 0 0x8123456789ABCDEF) 0x04000F00).map State.response = some (some 0x81) := by decide
/-- V-CODEC-9: offset 8 is lane 1's low byte, not lane 0's top byte. -/
theorem test_byteRd_edge : (issued (withLane 0 0 0xC300000000000000) 0x04000800).map State.response = some (some 0) := by decide

/-! ## The permutation commands and STATUS.RD -/

/-- V-DEC-21, R85. -/
theorem test_permFull : (issued { State.reset with done := true, lastMode := true } 0x10000000).map (fun t => (t.status, t.ridx)) =
    some (0x1, 0) := by decide
/-- V-DEC-22, R86. -/
theorem test_permHalf : (issued State.reset 0x10000001).map (fun t => (t.status, t.ridx)) = some (0x5, 12) := by decide
/-- V-STATUS-7: busy, with the rejected PERM.HALF on record. -/
theorem test_statusRd_busy : (issued (running 3 |>.recordError .busyHazard) 0x20000000).map State.response = some (some 0xB01) := by decide
/-- V-STATUS-3: after a half permutation. -/
theorem test_statusRd_done : (issued { State.reset with done := true, lastMode := true } 0x20000000).map State.response =
    some (some 0x6) := by decide

/-! ## Rejection, reset, idleness -/

/-- V-STATUS-8: an illegal opcode leaves STATUS 0x300. -/
theorem test_reject_illegal : (issued State.reset 0x00000000).map (fun t => (t.status, t.fault)) =
    some (0x300, some .illegalOpcode) := by decide
/-- V-STATUS-9: the second rejection keeps the first code, and a rejected read puts 0 on rdata. -/
theorem test_reject_second : (issued (State.reset.recordError .laneRange) 0x0400C800).map (fun t => (t.status, t.rdata, t.response)) =
    some (0x700, some 0, none) := by decide
/-- V-STATUS-10: LANE_RANGE while busy, not BUSY_HAZARD. -/
theorem test_reject_priority : (issued (running 0) 0x02000500).map State.status = some 0x701 := by decide
/-- V-STATUS-12: a second PERM while busy is rejected and restarts nothing. -/
theorem test_reject_perm : (issued (running 5) 0x10000000).map (fun t => (t.status, t.ridx)) = some (0xB01, 5) := by decide
/-- R96: the machine's step stops after a rejection, for a command that it would accept; R108: after a reset too. -/
theorem test_model_stops : faultOf (step ((State.reset.recordError .laneRange).withHost [.issue ⟨0x20000000, 0⟩])) =
    some (.rejected .laneRange) ∧
    faultOf (step ((State.reset.recordError .laneRange).withHost [.issue ⟨0x20000000, 0⟩]).applyReset) =
    some (.rejected .laneRange) := by decide
/-- R96: the step that rejects records the fault, and the next one stops with it. -/
theorem test_model_records : (nextOf (step (State.reset.withHost [.issue ⟨0, 0⟩, .quiet]))).map (fun t => (t.fault, faultOf (step t))) =
    some (some .illegalOpcode, some (.rejected .illegalOpcode)) := by decide
/-- V-RESET-2: reset abandons a running permutation. -/
theorem test_reset : (nextOf (step ({ running 7 with err := true, fault := some .laneRange }.withHost [.reset none]))).map
    (fun t => (t.status, t.busy, t.fault)) = some (0, false, some .laneRange) := by decide
/-- V-RESET-3: a command before the first reset is refused. -/
theorem test_before_reset : issued { State.reset with resetSeen := false } 0x20000000 = none := by decide

/-! ## The round function -/

/-- V-THETA-4. -/
theorem test_theta : thetaStep (lanesOf [(17, 0x8000000000000001)]) = lanesOf [(1, 3), (3, 0x8000000000000001), (6, 3),
    (8, 0x8000000000000001), (11, 3), (13, 0x8000000000000001), (16, 3), (17, 0x8000000000000001), (18, 0x8000000000000001),
    (21, 3), (23, 0x8000000000000001)] := by decide
/-- V-RHO-3: ROT[4,4] = 14. -/
theorem test_rho : rhoStep (lanesOf [(24, 0x0123456789ABCDEF)]) = lanesOf [(24, 0xD159E26AF37BC048)] := by decide
/-- V-PI-1, V-PI-2. -/
theorem test_pi : piStep (lanesOf [(1, 1), (2, 0xAA)]) = lanesOf [(10, 1), (20, 0xAA)] := by decide
/-- V-CHI-3. -/
theorem test_chi : chiStep (lanesOf [(0, 1), (1, 2), (2, 4), (3, 8), (4, 0x10)]) =
    lanesOf [(0, 5), (1, 0xA), (2, 0x14), (3, 9), (4, 0x12)] := by decide
/-- V-CHI-3 with lane (1, 0) held complemented and no lane made so. -/
theorem test_adaptedChi : adaptedChi (fun x y => x = 1 && y = 0) (fun _ _ => false)
    (lanesOf [(0, 1), (1, 0xFFFFFFFFFFFFFFFD), (2, 4), (3, 8), (4, 0x10)]) =
    lanesOf [(0, 5), (1, 0xA), (2, 0x14), (3, 9), (4, 0x12)] := by decide
/-- R69: the two columns of the table, at their edges; R86: half mode starts with RC[12]. -/
theorem test_rc : rc 0 = 0x0000000000000001 ∧ rc 11 = 0x000000008000000A ∧ rc 12 = 0x000000008000808B ∧
    rc 23 = 0x8000000080008008 := by decide
/-- V-IOTA-1. -/
theorem test_iota : iotaStep (lanesOf [(0, 0xFFFFFFFFFFFFFFFF)]) 3 = lanesOf [(0, 0x7FFFFFFF7FFF7FFF)] := by decide
/-- V-ROUND-2. -/
theorem test_round : keccakRound (lanesOf [(0, 1)]) 1 = lanesOf [(0, 0x8083), (1, 0x0000100000000000), (2, 0x8000), (3, 1),
    (4, 0x0000100000008000), (6, 0x0000200000200000), (8, 0x0000200000000000), (9, 0x200000), (10, 2), (11, 0x200), (13, 0x202),
    (15, 0x10000400), (17, 0x400), (18, 0x10000000), (20, 0x10000000000), (22, 0x10000000004), (24, 4)] := by decide
/-- V-PERM-1, lanes (0,0) and (4,4). -/
theorem test_full : laneAt (fullPerm State.reset.lanes) 0 0 = 0xF1258F7940E1DDE7 ∧
    laneAt (fullPerm State.reset.lanes) 4 4 = 0xEAF1FF7B5CECA249 := by decide +kernel
/-- V-PERM-3, lane (0,0). -/
theorem test_half : laneAt (halfPerm State.reset.lanes) 0 0 = 0x8E5E5438B9A78617 := by decide +kernel

/-! ## The sequencer -/

/-- V-ROUND-1 by a step of the sequencer, with more rounds to come. -/
theorem test_seq : (nextOf (step (running 3))).map (fun t => (laneAt t.lanes 0 0, t.ridx, t.status)) =
    some (0x8000000080008000, 4, 1) := by decide
/-- Round 23 completes: BUSY 0, DONE 1. -/
theorem test_seq_last : (nextOf (step (running 23))).map (fun t => (laneAt t.lanes 0 0, t.status)) = some (0x8000000080008008, 2) := by decide

/-! ## The host side -/

/-- R61: lane 16 is (1, 3). -/
theorem test_laneWri : expand (.laneWri 16 7) = [.laneWr 1 3 7] := by decide
/-- R60: the assembler refuses offset 200. -/
theorem test_assemble_refuses : assemble (.byteRd 200) = none := by decide
/-- R61: a missing response leaves the host without its bytes. -/
theorem test_storedBytes : storedBytes (none :: List.replicate 24 (some 0)) = none ∧ storedBytes [some 1] = none := by decide
/-- The fetch interface runs the word it is given. -/
theorem test_withFetchWord : (nextOf (step (State.reset.withFetchWord 32 0x10000001))).map State.status = some 0x5 := by decide
/-- R61: the wait loop ends on BUSY = 0. -/
theorem test_poll : pollSaysIdle (.data 0x5) = false ∧ pollSaysIdle (.data 0x6) = true := by decide
/-- R31: the cell view lists the bytes that are not 0. -/
theorem test_cells : cells (lanesOf [(8, 0x0100000000000002)]) = [(64, 2), (71, 1)] := by decide +kernel

/-! ## Witnesses: each meets all hypotheses of the statement it is named after -/

/-- The blocks of the witnesses below have no rejection on record, so that their runs go on in both views. -/
theorem witness_Going (v : View) (r : Fin 24) (es : List HostEvent) :
    Going v State.reset ∧ Going v (State.reset.withHost es) ∧ Going v (running r) ∧ Going v ((running r).withHost es) ∧
    Going .hardware ((running r).recordError .busyHazard) := ⟨.inr rfl, .inr rfl, .inr rfl, .inr rfl, .inl rfl⟩

theorem witness_ResetTransition : ({ running 7 with fault := some .laneRange } |>.withHost [.reset (some ⟨0x02000000, 0⟩), .quiet]).host =
    .reset (some ⟨0x02000000, 0⟩) :: [.quiet] := rfl

theorem witness_BeforeResetRefused : ∃ (s : State) (c : Command) (es : List HostEvent), s.resetSeen = false ∧ s.host = .issue c :: es :=
  ⟨{ State.reset with resetSeen := false, host := [.issue ⟨0x20000000, 0⟩] }, ⟨0x20000000, 0⟩, [], rfl, rfl⟩

theorem witness_StepNeverStopsAfterReset : State.reset.resetSeen = true := rfl

theorem witness_PowerLossNeedsReset : (State.reset.withHost [.powerLoss]).host = .powerLoss :: [] := rfl

theorem witness_IdleHolds : State.reset.busy = false ∧ State.reset.host = [] ∧
    (State.reset.withHost [.quiet]).busy = false ∧ (State.reset.withHost [.quiet]).host = .quiet :: [] := ⟨rfl, rfl, rfl, rfl⟩

theorem witness_DecodeEncode : Instr.wellFormed (.laneWr 4 4) = true ∧ Instr.wellFormed (.byteWr 199 255) = true := by decide

theorem witness_EncodeDecode : decode 0x0300C7FF = .ok (.byteWr 199 0xFF) := by decide

/-- Both sides of each equivalence, at the edges of the legal opcodes. -/
theorem witness_IllegalOpcodeRejected : decode 0x05FFFFFF = .error .illegalOpcode ∧ decode 0x04000000 ≠ .error .illegalOpcode := by decide

/-- A block in which a word can be rejected, for RejectedWith in the three statements about decode errors. -/
theorem witness_RejectedWith : ((running 3).withHost [.issue ⟨0x05FFFFFF, 7⟩]).resetSeen = true ∧
    ((running 3).withHost [.issue ⟨0x05FFFFFF, 7⟩]).err = false ∧
    ((running 3).withHost [.issue ⟨0x05FFFFFF, 7⟩]).host = .issue ⟨0x05FFFFFF, 7⟩ :: [] := ⟨rfl, rfl, rfl⟩

/-- Each format's lowest and highest reserved bit. -/
theorem witness_ReservedBitsRejected :
    decode 0x01000001 = .error .reservedBits ∧ decode 0x02800000 = .error .reservedBits ∧
    decode 0x03010000 = .error .reservedBits ∧ decode 0x03800000 = .error .reservedBits ∧
    decode 0x04000001 = .error .reservedBits ∧ decode 0x04800000 = .error .reservedBits ∧
    decode 0x10000002 = .error .reservedBits ∧ decode 0x10800000 = .error .reservedBits ∧
    decode 0x20000001 = .error .reservedBits ∧ decode 0x20800000 = .error .reservedBits := by decide

/-- 4 is in range and 5 is not; 199 is and 200 is not. -/
theorem witness_RangeRejected : decode 0x02004400 = .ok (.laneRd 4 4) ∧ decode 0x02004500 = .error .laneRange ∧
    decode 0x01005400 = .error .laneRange ∧ decode 0x0300C700 = .ok (.byteWr 199 0) ∧ decode 0x0300C800 = .error .byteRange ∧
    decode 0x0400C800 = .error .byteRange := by decide

/-- Each line at its bounds, accepted and refused. -/
theorem witness_AssemblerEncodes : assemble (.laneWr 4 4 (2 ^ 64 - 1)) = some ⟨0x01004400, 0xFFFFFFFFFFFFFFFF⟩ ∧
    assemble (.laneWr 0 0 (2 ^ 64)) = none ∧ assemble (.laneRd 5 0) = none ∧ assemble (.byteWr 199 255) = some ⟨0x0300C7FF, 0⟩ ∧
    assemble (.byteWr 0 256) = none ∧ assemble (.byteRd 200) = none := by decide

theorem witness_StepRunsDecoded : ∃ (s : State) (c : Command) (es : List HostEvent) (i : Instr),
    s.host = .issue c :: es ∧ decode c.word = .ok i ∧ s.fault = none :=
  ⟨running 3 |>.withHost [.issue ⟨0x01004400, 7⟩, .quiet], ⟨0x01004400, 7⟩, [.quiet], .laneWr 4 4, rfl, by decide, rfl⟩

/-- Every cause of a rejection occurs, in an idle and in a busy block, with and without an earlier one on record. -/
theorem witness_RejectionIsPrecise : Going .model (running 3) ∧ Going .hardware (State.reset.recordError .laneRange) ∧
    isReadOpcode 0x02000500 = true ∧ rejection State.reset ⟨0x00000000, 0⟩ = some .illegalOpcode ∧
    rejection State.reset ⟨0x04000001, 0⟩ = some .reservedBits ∧ rejection (running 3) ⟨0x02000500, 0⟩ = some .laneRange ∧
    rejection (State.reset.recordError .laneRange) ⟨0x0400C800, 0⟩ = some .byteRange ∧
    rejection (running 23) ⟨0x10000001, 0⟩ = some .busyHazard ∧ (running 23).resetSeen = true ∧
    ((running 23).withHost [.issue ⟨0x10000001, 0⟩]).host = .issue ⟨0x10000001, 0⟩ :: [] := by decide

theorem witness_AcceptedLeavesErrors : rejection (running 3) ⟨0x20000000, 0⟩ = none ∧ (running 3).resetSeen = true ∧
    ((running 3).withHost [.issue ⟨0x20000000, 0⟩]).host = .issue ⟨0x20000000, 0⟩ :: [] := by decide

theorem witness_BusyHazard : (running 23).resetSeen = true ∧ (running 23).busy = true ∧ (running 23).fault = none ∧ (running 23).err = false ∧
    Instr.wellFormed (.laneWr 4 4) = true ∧ Instr.laneWr 4 4 ≠ .statusRd := by decide

theorem witness_RangeBeforeBusy : (running 3).resetSeen = true ∧ (running 3).err = false ∧ 4 < (5 : BitVec 3).toNat ∧
    199 < (200 : BitVec 8).toNat := by decide

/-- The idle reset block, for LaneWrWrites, LaneRdReads, ByteWrWrites, ByteRdReads, PermStarts, StatusRdReads, LaneWrThenReads. -/
theorem witness_idle_after_reset : State.reset.resetSeen = true ∧ State.reset.busy = false := ⟨rfl, rfl⟩

/-- A lane other than the written one, and a byte other than the written one. -/
theorem witness_other_lane_other_byte : (((4 : Fin 5), (3 : Fin 5)) ≠ (4, 4)) ∧ (198 : Nat) ≠ (199 : Fin 200).val := by decide

/-- STATUS.RD is accepted in a busy block too. -/
theorem witness_StatusRdReads_busy : (running 3).resetSeen = true ∧ (running 3).busy = true := ⟨rfl, rfl⟩

/-- Next states exist for the frames, with the last byte below and the first byte above the stored lane. -/
theorem witness_CommandMemoryFrame : (∃ t, exec (.laneWr 1 0) State.reset = .next t) ∧
    (7 < 8 * ((1 : BitVec 3).toNat + 5 * (0 : BitVec 3).toNat)) ∧ (8 * ((1 : BitVec 3).toNat + 5 * (0 : BitVec 3).toNat) + 8 ≤ 16) ∧
    (∃ t, exec (.byteWr 199 1) State.reset = .next t) ∧ (198 ≠ (199 : BitVec 8).toNat) :=
  ⟨⟨_, rfl⟩, by decide, by decide, ⟨_, rfl⟩, by decide⟩

theorem witness_CommandRegisterFrame : (∃ t, exec .statusRd (running 3) = .next t) ∧ Instr.statusRd ≠ .permFull ∧ Instr.statusRd ≠ .permHalf :=
  ⟨⟨_, rfl⟩, by decide, by decide⟩

theorem witness_OnlyLaneWrReadsDin : ∀ x y, Instr.byteWr 199 1 ≠ .laneWr x y := by decide

/-- An idle block, its lanes not 0, whose host is about to run the lines of a pseudo-instruction, and something after them. -/
theorem witness_StateLoadFillsS : ∃ (s : State) (cs : List Command) (es : List HostEvent),
    (expand (.stateLoad (Vector.replicate 200 0xFF))).mapM assemble = some cs ∧ s.resetSeen = true ∧ s.busy = false ∧
    s.host = cs.map HostEvent.issue ++ es := by
  have h : ((expand (.stateLoad (Vector.replicate 200 0xFF))).mapM assemble).isSome = true := by decide +kernel
  obtain ⟨cs, hcs⟩ := Option.isSome_iff_exists.1 h
  exact ⟨(withLane 2 3 7).withHost (cs.map HostEvent.issue ++ [.quiet]), cs, [.quiet], hcs, rfl, rfl, rfl⟩

theorem witness_StateStoreReturnsS : ∃ (s : State) (ds : List Command) (es : List HostEvent),
    (expand .stateStore).mapM assemble = some ds ∧ s.resetSeen = true ∧ s.busy = false ∧ s.host = ds.map HostEvent.issue ++ es := by
  have h : ((expand .stateStore).mapM assemble).isSome = true := by decide +kernel
  obtain ⟨ds, hds⟩ := Option.isSome_iff_exists.1 h
  exact ⟨(withLane 2 3 7).withHost (ds.map HostEvent.issue ++ [.quiet]), ds, [.quiet], hds, rfl, rfl, rfl⟩

theorem witness_RotateMovesBits : (63 : Nat) < 64 ∧ (0 : Nat) < 64 := by decide

/-- The places where the rotated bit wraps and where it does not. -/
theorem witness_RhoRotatesLanes : (0 : Nat) < 64 ∧ (63 : Nat) < 64 ∧ rot 1 0 = 1 ∧ rot 2 0 = 62 := by decide

/-- V-THETA-3: two equal lanes in one column. -/
theorem witness_ThetaLaws : ∀ x, columnParity (lanesOf [(0, 1), (5, 1)]) x = 0 := by decide

theorem witness_RotFromWalk : ((1 : Fin 5), (1 : Fin 5)) ≠ (0, 0) := by decide

/-- Both ways a slot is quiet, and both cases of the round index. -/
theorem witness_SequencerStep : (running 23).busy = true ∧ (running 23).host = [] ∧ (running 23).ridx = 23 ∧ (running 0).ridx ≠ 23 ∧
    ((running 0).withHost [.quiet]).host = .quiet :: [] := by decide

/-- Rounds 0 to 22 done, round 23 left: among polls, and in the hardware's view among a rejected command. -/
theorem witness_InterleavingProgress : onlyPolls (.issue ⟨0x20000000, 0⟩ :: List.replicate 23 .quiet) = true ∧
    (running 0).ridx.val + quietCount (.issue ⟨0x20000000, 0⟩ :: List.replicate 23 .quiet) < 24 ∧
    ((running 0).withHost ((.issue ⟨0x02000000, 0⟩ :: List.replicate 23 .quiet) ++ [.quiet])).busy = true ∧
    onlyCommands (.issue ⟨0x02000000, 0⟩ :: List.replicate 23 .quiet) = true ∧
    (running 0).ridx.val + quietCount (.issue ⟨0x02000000, 0⟩ :: List.replicate 23 .quiet) < 24 := by decide

/-- A full and a half permutation with one poll among their slots. -/
theorem witness_AtomicEquivalence : State.reset.resetSeen = true ∧ State.reset.busy = false ∧ State.reset.fault = none ∧
    onlyPolls (.issue ⟨0x20000000, 0⟩ :: List.replicate 23 .quiet) = true ∧
    onlyCommands (.issue ⟨0x20000000, 0⟩ :: List.replicate 23 .quiet) = true ∧
    quietCount (.issue ⟨0x20000000, 0⟩ :: List.replicate 23 .quiet) + 1 = roundCount .full ∧
    quietCount (.issue ⟨0x20000000, 0⟩ :: List.replicate 11 .quiet) + 1 = roundCount .half ∧
    (State.reset.withHost (.issue ⟨encode (permCommand .half), 0⟩ :: ((.issue ⟨0x20000000, 0⟩ :: List.replicate 11 .quiet) ++ .quiet :: []))).host =
      .issue ⟨encode (permCommand .half), 0⟩ :: ((.issue ⟨0x20000000, 0⟩ :: List.replicate 11 .quiet) ++ .quiet :: []) := by decide

theorem witness_SequencerCompletes : (running 0).busy = true ∧ (running 0).host = [] ∧ (running 23).busy = true ∧ (running 23).host = [] := by
  decide

/-- The invariant holds in a running block and in one with an error on record, and each steps, the second as the hardware. -/
theorem witness_InvStep : Inv (running 3) ∧ (∃ t, step (running 3) = .next t) ∧ Inv ((running 3).recordError .busyHazard) ∧
    ∃ t, stepIn .hardware ((running 3).recordError .busyHazard) = .next t :=
  ⟨by decide, ⟨_, rfl⟩, by decide, _, rfl⟩

theorem witness_FaultNeverCleared : ((State.reset.recordError .laneRange).withHost [.reset none]).fault = some .laneRange ∧
    (∃ t, step ((State.reset.recordError .laneRange).withHost [.reset none]) = .next t) ∧
    ∀ lost es, (State.reset.recordError .laneRange).host ≠ .reset lost :: es :=
  ⟨rfl, ⟨_, rfl⟩, fun _ _ h => by cases h⟩

/-- BUSY set by PERM.FULL, and cleared by round 23 and by reset. -/
theorem witness_BusyChanges : State.reset.busy = false ∧ (issued State.reset 0x10000000).map (·.busy) = some true ∧ (running 23).busy = true ∧
    (nextOf (step (running 23))).map (·.busy) = some false ∧
    (nextOf (step ((running 5).withHost [.reset none]))).map (·.busy) = some false := by decide

/-- DONE set by round 23, and cleared by PERM.HALF and by reset. -/
theorem witness_DoneChanges : (running 23).done = false ∧ (nextOf (step (running 23))).map (·.done) = some true ∧
    (issued { State.reset with done := true } 0x10000001).map (·.done) = some false ∧
    (nextOf (step ({ State.reset with done := true }.withHost [.reset none]))).map (·.done) = some false := by decide

/-- LAST_MODE written by each PERM command. -/
theorem witness_LastModeChanges : (issued State.reset 0x10000001).map (·.lastMode) = some true ∧
    (issued { State.reset with lastMode := true } 0x10000000).map (·.lastMode) = some false ∧
    (∀ es, (State.reset.withHost [.issue ⟨0x10000001, 0⟩]).host ≠ .powerLoss :: es) ∧
    ∀ lost es, (State.reset.withHost [.issue ⟨0x10000001, 0⟩]).host ≠ .reset lost :: es :=
  ⟨by decide, by decide, by rintro es ⟨⟩, by rintro lost es ⟨⟩⟩

/-- ERR kept, set, and left 0. -/
theorem witness_ErrSticky : (issued (State.reset.recordError .laneRange) 0x00000000).map (·.err) = some true ∧
    (issued State.reset 0x00000000).map (·.err) = some true ∧ (issued State.reset 0x20000000).map (·.err) = some false := by decide

/-- S changed by a codec write and by the sequencer. -/
theorem witness_LanesChange : (issued State.reset 0x01000000 1).map (fun t => decide (t.lanes = State.reset.lanes)) = some false ∧
    (nextOf (step (running 0))).map (fun t => decide (t.lanes = State.reset.lanes)) = some false := by decide

theorem witness_IdleHiddenUnread : HiddenEq State.reset (withHidden State.reset 23 .half) := .inr ⟨rfl, 23, .half, rfl⟩

theorem witness_ControlIndependentOfData : eraseData State.reset = eraseData (withLane 0 0 0xFFFFFFFFFFFFFFFF) := rfl

theorem witness_BlocksShareNothing : (∃ sys', System.step [⟨0, State.reset⟩, ⟨1, running 3⟩] 1 = .next sys') ∧ (0 : Nat) ≠ 1 ∧
    ([⟨0, State.reset⟩, ⟨1, running 3⟩] : System)[1]? = some ⟨1, running 3⟩ ∧ (⟨1, running 3⟩ : OwnedBlock).owner ≠ 0 :=
  ⟨⟨_, rfl⟩, by decide, rfl, by decide⟩

end Sys2Proof.Tests
end

/-! PROOFS. The statements about 00_scope.md: a busy block completes, a block that has been reset stops only at a recorded
rejection, and ROL64 bit by bit. -/

namespace Sys2Proof.Machine

/-! ## The sequencer's rounds as the permutation function -/

@[simp] theorem State.seqStep_lastMode (s : State) : s.seqStep.lastMode = s.lastMode := by
  rcases seqStep_cases s with ⟨_, h⟩ | ⟨_, h⟩ <;> simp [h]

@[simp] theorem State.seqStep_done (s : State) : s.seqStep.done = (s.done || decide (s.ridx = 23)) := by
  rcases seqStep_cases s with ⟨h1, h⟩ | ⟨h1, h⟩ <;> simp [h, h1]

/-- Before round 23 the sequencer's step moves RIDX to the next round, without wrapping (42_sequencer.md R87). -/
theorem State.seqStep_ridx_val {s : State} (h : s.ridx.val < 23) : s.seqStep.ridx.val = s.ridx.val + 1 := by
  rcases seqStep_cases s with ⟨hlast, _⟩ | ⟨_, hstep⟩
  · simp [hlast] at h
  · simpa [hstep] using Fin.val_add_one_of_lt' (n := 24) (i := s.ridx) (by omega)

theorem roundIndices_drop (i : Fin 24) : roundIndices.drop i.val = i :: roundIndices.drop (i.val + 1) := by
  revert i; decide

/-- Rounds i..23 are round i and then rounds i+1..23 (42_sequencer.md R83). -/
theorem permFrom_round (A : Lanes) (i : Fin 24) : permFrom A i.val = permFrom (keccakRound A i) (i.val + 1) := by
  simp [permFrom, runRounds, roundIndices_drop i]

/-- No round is left after round 23. -/
@[simp] theorem permFrom_24 (A : Lanes) : permFrom A 24 = A := rfl

/-- A busy block whose host has nothing more to issue gives its slot to the sequencer (00_scope.md R13). -/
theorem stepIn_seqStep {v : View} {s : State} (hgo : v = .hardware ∨ s.fault = none) (hbusy : s.busy = true)
    (hhost : s.host = []) : stepIn v s = .next s.seqStep := by
  rw [stepIn_going hgo, slot_nil hhost]
  rcases quietSlot_cases s with ⟨_, h⟩ | ⟨hidle, _⟩
  · rw [h]
  · simp [hbusy] at hidle

/-! ## ROL64 -/

/-- ROL64 is the library's rotation (00_scope.md R8); for amount 0 the second shift is by the whole width. -/
theorem rol64_eq_rotateLeft (v : Word) {n : Nat} (hn : n < 64) : rol64 v n = v.rotateLeft n := by
  rw [BitVec.rotateLeft_def, Nat.mod_eq_of_lt hn, rol64]
  split
  · next h => subst h; simp [BitVec.ushiftRight_eq_zero]
  · rfl

theorem getLsbD_rol64 (v : Word) {n z : Nat} (hn : n < 64) (hz : z < 64) :
    (rol64 v n).getLsbD z = v.getLsbD ((z + 64 - n) % 64) := by
  rw [rol64_eq_rotateLeft v hn, BitVec.getLsbD_rotateLeft, Nat.mod_eq_of_lt hn]
  by_cases hwrap : z < n
  · simp [hwrap, show (z + 64 - n) % 64 = 64 - n + z by omega]
  · simp [hwrap, hz, show (z + 64 - n) % 64 = z - n by omega]

end Sys2Proof.Machine

namespace Sys2Proof.Safety

open Sys2Proof.Machine

/-- A busy block whose host is silent, with n rounds left after the next one, completes in n + 1 steps: by induction on n, each
step performing the first of the rounds that are left (42_sequencer.md R87, R88). -/
theorem runSteps_completes {v : View} {n : Nat} {s : State} (hgo : Going v s) (hbusy : s.busy = true) (hhost : s.host = [])
    (hleft : s.ridx.val + n = 23) :
    ∃ t, runSteps v (n + 1) s = .next t ∧ t.busy = false ∧ t.done = true ∧ t.lanes = permFrom s.lanes s.ridx.val ∧
      t.lastMode = s.lastMode := by
  induction n generalizing s with
  | zero =>
    have hlast : s.ridx = 23 := Fin.ext hleft
    refine ⟨s.seqStep, runSteps_step (stepIn_seqStep hgo hbusy hhost), by simp [hlast], by simp [hlast], ?_, by simp⟩
    rw [permFrom_round, show s.ridx.val + 1 = 24 by omega, permFrom_24, State.seqStep_lanes]
  | succ n ih =>
    have hnext : s.seqStep.ridx.val = s.ridx.val + 1 := State.seqStep_ridx_val (by omega)
    have hmore : s.ridx ≠ 23 := by rintro h; simp [h] at hleft
    obtain ⟨t, hrun, hidle, hdone, hlanes, hmode⟩ := ih (s := s.seqStep) (by simpa [Going, Unfaulted] using hgo)
      (by simp [hbusy, hmore]) (by simpa using hhost) (by omega)
    refine ⟨t, ?_, hidle, hdone, ?_, by simpa using hmode⟩
    · rw [runSteps_step (stepIn_seqStep hgo hbusy hhost), hrun]
    · rw [hlanes, hnext, State.seqStep_lanes, ← permFrom_round]

/-- Settles O46: rounds RIDX..23 are 24 - RIDX, and a block that goes on performs one in each step. -/
theorem sequencerCompletes : Obligations.SequencerCompletes := by
  intro v s hgo hbusy hhost
  obtain ⟨n, hn⟩ : ∃ n, 24 - s.ridx.val = n + 1 := ⟨23 - s.ridx.val, by omega⟩
  rw [hn]
  exact runSteps_completes hgo hbusy hhost (by omega)

/-- Settles O4: a run that goes on takes the block's slot, and a slot's only way to stop is a command before the first reset. -/
theorem stepNeverStopsAfterReset : Obligations.StepNeverStopsAfterReset := by
  intro v s hgo hseen
  rcases slot_cases s with ⟨hunseen, _⟩ | ⟨t, ht, _⟩
  · simp [hseen] at hunseen
  · exact ⟨t, by rw [stepIn_going hgo, ht]⟩

/-- Settles O32, from the library's bit law of a rotation. -/
theorem rotateMovesBits : Obligations.RotateMovesBits :=
  fun v _ _ hn hz => getLsbD_rol64 v hn hz

end Sys2Proof.Safety

/-! PROOFS. The statements about 10_state.md: the values at reset, which registers a command and a step may change, the
invariant, and that nothing reads RIDX and MODE of an idle block. -/

namespace Sys2Proof.Machine

variable {s t : State} {i : Instr}

/-! ## What an accepted command leaves unchanged -/

/-- No command touches the data port, the reset record, the host's further events or the loss count. -/
theorem Effect.keeps_ports (h : Effect s i t) :
    t.resetSeen = s.resetSeen ∧ t.din = s.din ∧ t.host = s.host ∧ t.losses = s.losses := by
  cases h <;> exact ⟨rfl, rfl, rfl, rfl⟩

/-- An accepted command leaves the error record alone (60_exceptions.md R95). -/
theorem Effect.keeps_errors (h : Effect s i t) : t.err = s.err ∧ t.errcode = s.errcode ∧ t.fault = s.fault := by
  cases h <;> exact ⟨rfl, rfl, rfl⟩

/-- Only the PERM commands write the registers of the sequencer (10_state.md R20 to R22, R25). -/
theorem Effect.keeps_permRegisters (h : Effect s i t) (hfull : i ≠ .permFull) (hhalf : i ≠ .permHalf) :
    t.busy = s.busy ∧ t.done = s.done ∧ t.lastMode = s.lastMode ∧ t.ridx = s.ridx ∧ t.mode = s.mode := by
  cases h with
  | permFull => exact absurd rfl hfull
  | permHalf => exact absurd rfl hhalf
  | _ => exact ⟨rfl, rfl, rfl, rfl, rfl⟩

/-- An accepted PERM of a mode starts that mode's permutation in an idle block (42_sequencer.md R85, R86). -/
theorem Effect.of_permCommand {m : Mode} (h : Effect s (Safety.permCommand m) t) :
    s.busy = false ∧ t = (s.startPerm m).answer .silent := by
  cases m with
  | full => cases h with | permFull idle => exact ⟨idle, rfl⟩
  | half => cases h with | permHalf idle => exact ⟨idle, rfl⟩

/-- Only a codec write changes S, and only in an idle block (10_state.md R15). -/
theorem Effect.lanes_cases (h : Effect s i t) :
    t.lanes = s.lanes ∨ (s.busy = false ∧ ((∃ x y, i = .laneWr x y) ∨ ∃ o d, i = .byteWr o d)) := by
  cases h with
  | laneWr x y _ _ idle => exact .inr ⟨idle, .inl ⟨x, y, rfl⟩⟩
  | byteWr o d _ _ idle => exact .inr ⟨idle, .inr ⟨o, d, rfl⟩⟩
  | _ => exact .inl rfl

/-- A command is a PERM of some mode, or neither of the two. -/
theorem permCommand_or_not (i : Instr) : (∃ m, i = Safety.permCommand m) ∨ (i ≠ .permFull ∧ i ≠ .permHalf) := by
  by_cases hfull : i = .permFull
  · exact .inl ⟨.full, hfull⟩
  · by_cases hhalf : i = .permHalf
    · exact .inl ⟨.half, hhalf⟩
    · exact .inr ⟨hfull, hhalf⟩

/-- A word of a mode's PERM command decodes to PERM.FULL or to PERM.HALF. -/
theorem decode_permCommand_cases {w : BitVec 32} {m : Mode} (h : decode w = .ok (Safety.permCommand m)) :
    decode w = .ok .permFull ∨ decode w = .ok .permHalf := by
  cases m with
  | full => exact .inl h
  | half => exact .inr h

/-! ## Further fields of the sequencer's step, and quiet slots -/

@[simp] theorem State.seqStep_err (s : State) : s.seqStep.err = s.err := by
  rcases seqStep_cases s with ⟨_, h⟩ | ⟨_, h⟩ <;> simp [h]

@[simp] theorem State.seqStep_errcode (s : State) : s.seqStep.errcode = s.errcode := by
  rcases seqStep_cases s with ⟨_, h⟩ | ⟨_, h⟩ <;> simp [h]

@[simp] theorem State.seqStep_mode (s : State) : s.seqStep.mode = s.mode := by
  rcases seqStep_cases s with ⟨_, h⟩ | ⟨_, h⟩ <;> simp [h]

/-- Only round 23 clears BUSY (42_sequencer.md R88). -/
theorem State.ridx_of_seqStep_idle (hbusy : s.busy = true) (hidle : s.seqStep.busy = false) : s.ridx = 23 := by
  simpa [hbusy] using hidle

/-- Only round 23 sets DONE (10_state.md R21). -/
theorem State.ridx_of_seqStep_done (hclear : s.done = false) (hset : s.seqStep.done = true) : s.ridx = 23 := by
  simpa [hclear] using hset

/-- A quiet slot of an idle block holds it (60_exceptions.md R106). -/
theorem quietSlot_of_idle (h : s.busy = false) : s.quietSlot = s := by
  simp [State.quietSlot, h]

theorem QuietNext.host_cases {es : List HostEvent} (h : QuietNext s es) : s.host = [] ∨ ∃ es, s.host = .quiet :: es := by
  rcases h with ⟨h, _⟩ | h
  · exact .inl h
  · exact .inr ⟨es, h⟩

/-- In a quiet slot the host issues no command. -/
theorem QuietNext.not_issue {es : List HostEvent} (h : QuietNext s es) (c : Command) (es' : List HostEvent) :
    s.host ≠ .issue c :: es' := by
  rcases h with ⟨h, _⟩ | h <;> simp [h]

/-! ## What a step can do to BUSY, DONE and LAST_MODE -/

/-- The causes of a change of BUSY, DONE and LAST_MODE between two states, and what they make of them. -/
inductive PermChange (s t : State) : Prop where
  | started (c : Command) (es : List HostEvent) (m : Mode) (host : s.host = .issue c :: es)
      (command : decode c.word = .ok (Safety.permCommand m)) (idle : s.busy = false)
      (busy : t.busy = true) (done : t.done = false) (lastMode : t.lastMode = modeBit m)
  | round (es : List HostEvent) (quiet : QuietNext s es) (running : s.busy = true) (step : t = (s.withHost es).seqStep)
  | reset (lost : Option Command) (es : List HostEvent) (host : s.host = .reset lost :: es)
  | power (es : List HostEvent) (host : s.host = .powerLoss :: es)
  | kept (busy : t.busy = s.busy) (done : t.done = s.done) (lastMode : t.lastMode = s.lastMode)

theorem StepTo.permChange (h : StepTo s t) : PermChange s t := by
  cases h with
  | seq es running quiet => exact .round es quiet running rfl
  | idle es _ _ => exact .kept rfl rfl rfl
  | rejected es c r e _ _ _ => exact .kept rfl rfl rfl
  | performed es c i _ _ command host effect =>
    rcases permCommand_or_not i with ⟨m, rfl⟩ | ⟨hfull, hhalf⟩
    · obtain ⟨idle, rfl⟩ := effect.of_permCommand
      exact .started c es m host command idle rfl rfl rfl
    · obtain ⟨hbusy, hdone, hlast, _, _⟩ := effect.keeps_permRegisters hfull hhalf
      exact .kept hbusy hdone hlast
  | reset es lost host => exact .reset lost es host
  | power es host => exact .power es host

/-- A PERM command issued to an idle block writes LAST_MODE with its mode, if it answers at all (10_state.md R22): nothing
rejects it. -/
theorem StepTo.lastMode_of_perm {c : Command} {es : List HostEvent} {m : Mode} (h : StepTo s t)
    (hhost : s.host = .issue c :: es) (hidle : s.busy = false) (hperm : decode c.word = .ok (Safety.permCommand m)) :
    t.lastMode = modeBit m := by
  cases h with
  | seq es' _ quiet => exact absurd hhost (quiet.not_issue c es)
  | idle es' _ quiet => exact absurd hhost (quiet.not_issue c es)
  | rejected es' c' r e _ cause host =>
    obtain ⟨rfl, rfl⟩ : c = c' ∧ es = es' := by simpa [hhost] using host
    rcases cause with herr | ⟨i, hi, hill | ⟨_, hbusy, _⟩⟩
    · simp [hperm] at herr
    · simp [decode_wellFormed hi] at hill
    · simp [hidle] at hbusy
  | performed es' c' i _ _ command host effect =>
    obtain ⟨rfl, rfl⟩ : c = c' ∧ es = es' := by simpa [hhost] using host
    obtain rfl : Safety.permCommand m = i := by simpa [hperm] using command
    obtain ⟨_, rfl⟩ := effect.of_permCommand
    rfl
  | reset es' lost host => simp [hhost] at host
  | power es' host => simp [hhost] at host

/-! ## What a step can do to ERR and ERRCODE -/

/-- Without a reset and a loss of power, a step keeps ERR and ERRCODE or rejects a command and records the first
rejection (60_exceptions.md R95). -/
theorem StepTo.errors_cases (h : StepTo s t) (hpower : ∀ es, s.host ≠ .powerLoss :: es)
    (hreset : ∀ lost es, s.host ≠ .reset lost :: es) :
    (t.err = s.err ∧ t.errcode = s.errcode) ∨
    ∃ c es e, s.host = .issue c :: es ∧ PortCause c s e ∧ t.err = true ∧
      t.errcode = if s.err then s.errcode else errorCode e := by
  cases h with
  | seq es _ _ => exact .inl ⟨by simp, by simp⟩
  | idle es _ _ => exact .inl ⟨rfl, rfl⟩
  | rejected es c r e _ cause host => exact .inr ⟨c, es, e, host, cause, rfl, rfl⟩
  | performed es c i _ _ _ _ effect =>
    obtain ⟨herr, hcode, _⟩ := effect.keeps_errors
    exact .inl ⟨herr, hcode⟩
  | reset es lost host => exact absurd host (hreset lost es)
  | power es host => exact absurd host (hpower es)

end Sys2Proof.Machine

namespace Sys2Proof.Safety

open Sys2Proof.Machine

/-- The cause for which the port rejects a command is the one that the order of 60_exceptions.md R97 names: the decoder
yields no ill-formed command, so that no meaning finds a range error of its own. -/
theorem rejection_of_portCause {c : Command} {s : State} {e : ErrCode} (h : PortCause c s e) : rejection s c = some e := by
  rcases h with herr | ⟨i, hi, hill | ⟨rfl, hbusy, hne⟩⟩
  · simp [rejection, herr]
  · simp [decode_wellFormed hi] at hill
  · simp [rejection, hi, hbusy, hne]

/-! ## The invariant, in its two independent parts -/

section Invariant

variable {s t : State}

/-- The part of `Inv` about ERR, ERRCODE and the fault record. -/
def ErrorRecordOk (s : State) : Prop :=
  (s.err = false ↔ s.errcode = 0) ∧ s.errcode.toNat ≤ 5 ∧ (s.err = true → s.fault ≠ none)

/-- The part of `Inv` about BUSY, DONE, LAST_MODE, MODE and RIDX. -/
def SequencerOk (s : State) : Prop :=
  ¬ (s.busy = true ∧ s.done = true) ∧ (s.busy = true → s.lastMode = modeBit s.mode ∧ firstRound s.mode ≤ s.ridx)

theorem inv_iff : Inv s ↔ (s.resetSeen = true → ErrorRecordOk s ∧ SequencerOk s) := by
  simp only [Inv, ErrorRecordOk, SequencerOk, and_assoc]

theorem ErrorRecordOk.congr (h : ErrorRecordOk s) (herr : t.err = s.err) (hcode : t.errcode = s.errcode)
    (hfault : t.fault = s.fault) : ErrorRecordOk t := by
  rwa [ErrorRecordOk, herr, hcode, hfault]

theorem SequencerOk.congr (h : SequencerOk s) (hbusy : t.busy = s.busy) (hdone : t.done = s.done)
    (hlast : t.lastMode = s.lastMode) (hridx : t.ridx = s.ridx) (hmode : t.mode = s.mode) : SequencerOk t := by
  rwa [SequencerOk, hbusy, hdone, hlast, hridx, hmode]

/-- A rejection records its own code, never 0, 6 or 7, or keeps the one there is. -/
theorem ErrorRecordOk.reject (h : ErrorRecordOk s) (r : Bool) (e : ErrCode) : ErrorRecordOk (s.reject r e) := by
  obtain ⟨hzero, hle, _⟩ := h
  have hfault : (s.reject r e).fault ≠ none := by cases hf : s.fault <;> simp [hf]
  cases herr : s.err with
  | true => exact ⟨by simpa [herr] using hzero, by simpa [herr] using hle, fun _ => hfault⟩
  | false => exact ⟨by simpa [herr] using errorCode_ne_zero e, by simpa [herr] using errorCode_le e, fun _ => hfault⟩

/-- Before round 23 the sequencer's step moves RIDX further from the first round; round 23 clears BUSY. -/
theorem SequencerOk.seqStep (h : SequencerOk s) (hbusy : s.busy = true) : SequencerOk s.seqStep := by
  obtain ⟨hexcl, hrun⟩ := h
  obtain ⟨hlast, hfirst⟩ := hrun hbusy
  by_cases h23 : s.ridx = 23
  · simp [SequencerOk, h23]
  · have hnext : s.seqStep.ridx.val = s.ridx.val + 1 := State.seqStep_ridx_val (by omega)
    refine ⟨by simpa [h23] using hexcl, fun _ => ⟨by simpa using hlast, ?_⟩⟩
    rw [Fin.le_def, hnext, State.seqStep_mode]
    exact Nat.le_succ_of_le hfirst

theorem sequencerOk_startPerm (s : State) (m : Mode) : SequencerOk ((s.startPerm m).answer .silent) := by
  simp [SequencerOk]

theorem SequencerOk.effect {i : Instr} (h : SequencerOk s) (heffect : Effect s i t) : SequencerOk t := by
  rcases permCommand_or_not i with ⟨m, rfl⟩ | ⟨hfull, hhalf⟩
  · obtain ⟨_, rfl⟩ := heffect.of_permCommand
    exact sequencerOk_startPerm s m
  · obtain ⟨hbusy, hdone, hlast, hridx, hmode⟩ := heffect.keeps_permRegisters hfull hhalf
    exact h.congr hbusy hdone hlast hridx hmode

theorem inv_applyReset (s : State) : Inv s.applyReset := by
  simp [Inv]

/-- Every case of a step keeps the invariant. -/
theorem inv_of_stepTo (hinv : Inv s) (h : StepTo s t) : Inv t := by
  rw [inv_iff] at hinv
  cases h with
  | seq es running _ =>
    refine inv_iff.2 fun hseen => ?_
    obtain ⟨herr, hseq⟩ := hinv (by simpa using hseen)
    exact ⟨herr.congr (by simp) (by simp) (by simp), SequencerOk.seqStep (s := s.withHost es) hseq running⟩
  | idle es _ _ => exact inv_iff.2 hinv
  | rejected es c r e seen _ _ =>
    obtain ⟨herr, hseq⟩ := hinv seen
    exact inv_iff.2 fun _ => ⟨ErrorRecordOk.reject (s := (s.withHost es).withDin c.din) herr r e, hseq⟩
  | performed es c i _ seen _ _ effect =>
    obtain ⟨herr, hseq⟩ := hinv seen
    obtain ⟨hsame, hcode, hfault⟩ := effect.keeps_errors
    exact inv_iff.2 fun _ => ⟨herr.congr hsame hcode hfault, SequencerOk.effect (s := (s.withHost es).withDin c.din) hseq effect⟩
  | reset es lost _ => exact inv_applyReset _
  | power es _ => intro hseen; simp at hseen

end Invariant

/-! ## The hidden registers of an idle block -/

section Hidden

variable {s : State} {k : Fin 24} {m : Mode}

@[simp] theorem withHidden_busy (s : State) (k : Fin 24) (m : Mode) : (withHidden s k m).busy = s.busy := rfl

@[simp] theorem withHidden_resetSeen (s : State) (k : Fin 24) (m : Mode) : (withHidden s k m).resetSeen = s.resetSeen := rfl

theorem hiddenEq_withHidden (hidle : s.busy = false) : HiddenEq s (withHidden s k m) := .inr ⟨hidle, k, m, rfl⟩

theorem HiddenEq.host_eq {s s' : State} (h : HiddenEq s s') : s.host = s'.host := by
  rcases h with rfl | ⟨_, k, m, rfl⟩ <;> rfl

theorem HiddenEq.fault_eq {s s' : State} (h : HiddenEq s s') : s.fault = s'.fault := by
  rcases h with rfl | ⟨_, k, m, rfl⟩ <;> rfl

/-- The host sees neither RIDX nor MODE (10_state.md R25). -/
theorem HiddenEq.observe_eq {s s' : State} (h : HiddenEq s s') : observe s = observe s' := by
  rcases h with rfl | ⟨_, k, m, rfl⟩ <;> rfl

/-- The checks common to all commands read neither RIDX nor MODE. -/
theorem agree_runCommand_withHidden {α : Type} (hidle : s.busy = false) (c : CommandClass) (operand : Except ErrCode α)
    {f g : α → State} (hperform : ∀ a, HiddenEq (f a) (g a)) :
    Agree HiddenEq (runCommand s c operand f) (runCommand (withHidden s k m) c operand g) := by
  cases hseen : s.resetSeen with
  | false => simp [runCommand, hseen, Agree]
  | true =>
    cases operand with
    | error e =>
      rw [runCommand_range hseen, runCommand_range (by simpa using hseen)]
      exact hiddenEq_withHidden (s := s.reject c.isRead e) hidle
    | ok a =>
      rw [runCommand_perform hseen (.inl hidle), runCommand_perform (by simpa using hseen) (.inl (by simpa using hidle))]
      exact hperform a

/-- The PERM commands overwrite both registers, and every other command carries them along unread. -/
theorem agree_exec_withHidden (hidle : s.busy = false) (i : Instr) :
    Agree HiddenEq (exec i s) (exec i (withHidden s k m)) := by
  cases i with
  | permFull => rw [exec_permFull, exec_permFull]; exact agree_runCommand_withHidden hidle _ _ fun _ => .inl rfl
  | permHalf => rw [exec_permHalf, exec_permHalf]; exact agree_runCommand_withHidden hidle _ _ fun _ => .inl rfl
  | laneWr x y => rw [exec_laneWr, exec_laneWr]; exact agree_runCommand_withHidden hidle _ _ fun _ => .inr ⟨hidle, k, m, rfl⟩
  | laneRd x y => rw [exec_laneRd, exec_laneRd]; exact agree_runCommand_withHidden hidle _ _ fun _ => .inr ⟨hidle, k, m, rfl⟩
  | byteWr o d => rw [exec_byteWr, exec_byteWr]; exact agree_runCommand_withHidden hidle _ _ fun _ => .inr ⟨hidle, k, m, rfl⟩
  | byteRd o => rw [exec_byteRd, exec_byteRd]; exact agree_runCommand_withHidden hidle _ _ fun _ => .inr ⟨hidle, k, m, rfl⟩
  | statusRd => rw [exec_statusRd, exec_statusRd]; exact agree_runCommand_withHidden hidle _ _ fun _ => .inr ⟨hidle, k, m, rfl⟩

theorem agree_rejectWord_withHidden (hidle : s.busy = false) (w : BitVec 32) (e : ErrCode) :
    Agree HiddenEq (rejectWord w e s) (rejectWord w e (withHidden s k m)) := by
  cases hseen : s.resetSeen with
  | false => simp [rejectWord, hseen, Agree]
  | true =>
    simp only [rejectWord, withHidden_resetSeen, hseen, Bool.true_eq_false, if_false]
    exact hiddenEq_withHidden (s := s.reject (isReadOpcode w) e) hidle

theorem agree_issueCommand_withHidden (hidle : s.busy = false) (c : Command) :
    Agree HiddenEq (issueCommand c s) (issueCommand c (withHidden s k m)) := by
  unfold issueCommand
  cases decode c.word with
  | ok i => exact agree_exec_withHidden (s := s.withDin c.din) hidle i
  | error e => exact agree_rejectWord_withHidden (s := s.withDin c.din) hidle c.word e

theorem hiddenEq_quietSlot_withHidden (hidle : s.busy = false) : HiddenEq s.quietSlot (withHidden s k m).quietSlot := by
  rw [quietSlot_of_idle hidle, quietSlot_of_idle (s := withHidden s k m) hidle]
  exact hiddenEq_withHidden hidle

/-- Reset and loss of power overwrite both registers. -/
theorem agree_hostEvent_withHidden (hidle : s.busy = false) (e : HostEvent) :
    Agree HiddenEq (hostEvent e s) (hostEvent e (withHidden s k m)) := by
  cases e with
  | issue c => exact agree_issueCommand_withHidden hidle c
  | quiet => exact hiddenEq_quietSlot_withHidden hidle
  | reset lost => exact .inl rfl
  | powerLoss => exact .inl rfl

theorem agree_slot_withHidden (hidle : s.busy = false) : Agree HiddenEq (slot s) (slot (withHidden s k m)) := by
  cases hhost : s.host with
  | nil =>
    rw [slot_nil hhost, slot_nil (s := withHidden s k m) hhost]
    exact hiddenEq_quietSlot_withHidden hidle
  | cons e es =>
    rw [slot_cons hhost, slot_cons (s := withHidden s k m) hhost]
    exact agree_hostEvent_withHidden (s := s.withHost es) hidle e

/-- A step keeps the relation, in both views. -/
theorem HiddenEq.agree_stepIn {v : View} {s s' : State} (h : HiddenEq s s') :
    Agree HiddenEq (stepIn v s) (stepIn v s') := by
  refine Safety.agree_stepIn h.host_eq h.fault_eq ?_
  rcases h with rfl | ⟨hidle, k, m, rfl⟩
  · exact agree_refl (fun _ => .inl rfl) _
  · exact agree_slot_withHidden hidle

end Hidden

/-! ## The obligations -/

/-- Settles O48: each case of a step keeps the error record's part of the invariant and the sequencer's. -/
theorem invStep : Obligations.InvStep := by
  rintro s t hinv (hstep | hstep)
  · exact inv_of_stepTo hinv (stepIn_inv (v := .model) hstep)
  · exact inv_of_stepTo hinv (stepIn_inv hstep)

/-- Settles O55: `HiddenEq` is kept by every pair of steps, and it hides nothing that the host sees. -/
theorem idleHiddenUnread : Obligations.IdleHiddenUnread :=
  fun _ => runSteps_agree (fun _ _ h => h.agree_stepIn) fun _ _ h => ⟨h, h.observe_eq⟩

/-- Settles O26: a rejection writes the error record and the response port only, and the effects are as `Effect` says. -/
theorem commandRegisterFrame : Obligations.CommandRegisterFrame := by
  intro i s t h
  rcases exec_cases i s with ⟨_, hexec⟩ | ⟨_, r, e, _, hexec⟩ | ⟨_, t', heffect, hexec⟩ <;> rw [hexec] at h <;> cases h
  · exact ⟨rfl, rfl, rfl, rfl, fun _ _ => ⟨rfl, rfl, rfl, rfl, rfl⟩⟩
  · obtain ⟨hseen, hdin, hhost, hlosses⟩ := heffect.keeps_ports
    exact ⟨hseen, hdin, hhost, hlosses, heffect.keeps_permRegisters⟩

/-- Settles O50, by the causes of a change: of the sequencer's steps only round 23 clears BUSY. -/
theorem busyChanges : Obligations.BusyChanges := by
  intro v s t hstep hpower
  cases (stepIn_inv hstep).permChange with
  | started c es m host command idle busy _ _ =>
    exact ⟨fun _ _ => ⟨c, es, host, decode_permCommand_cases command⟩, by simp [idle]⟩
  | round es quiet running step =>
    subst step
    refine ⟨by simp [running], fun _ hidle => .inr ?_⟩
    have hlast : s.ridx = 23 := State.ridx_of_seqStep_idle (s := s.withHost es) running hidle
    exact ⟨hlast, by simp [hlast], by simp [hlast], quiet.host_cases⟩
  | reset lost es host =>
    cases stepIn_reset (v := v) host ▸ hstep
    exact ⟨by simp, fun _ _ => .inl ⟨lost, es, host⟩⟩
  | power es host => exact absurd host (hpower es)
  | kept busy _ _ => exact ⟨fun h h' => by simp [busy, h] at h', fun h h' => by simp [busy, h] at h'⟩

/-- Settles O51, by the causes of a change: of the sequencer's steps only round 23 sets DONE. -/
theorem doneChanges : Obligations.DoneChanges := by
  intro v s t hstep hpower
  cases (stepIn_inv hstep).permChange with
  | started c es m host command idle _ done _ =>
    exact ⟨by simp [done], fun _ _ => .inr ⟨c, es, host, idle, decode_permCommand_cases command⟩⟩
  | round es quiet running step =>
    subst step
    refine ⟨fun hclear hset => ?_, fun hset hclear => by simp [hset] at hclear⟩
    have hlast : s.ridx = 23 := State.ridx_of_seqStep_done (s := s.withHost es) hclear hset
    exact ⟨running, hlast, by simp [hlast], quiet.host_cases⟩
  | reset lost es host =>
    cases stepIn_reset (v := v) host ▸ hstep
    exact ⟨by simp, fun _ _ => .inl ⟨lost, es, host⟩⟩
  | power es host => exact absurd host (hpower es)
  | kept _ done _ => exact ⟨fun h h' => by simp [done, h] at h', fun h h' => by simp [done, h] at h'⟩

/-- Settles O52: an accepted PERM writes its mode, and no other cause of a change touches LAST_MODE. -/
theorem lastModeChanges : Obligations.LastModeChanges := by
  intro v s t hstep hpower hreset
  have hto : StepTo s t := stepIn_inv hstep
  refine ⟨fun c es host idle => ⟨hto.lastMode_of_perm (m := .full) host idle, hto.lastMode_of_perm (m := .half) host idle⟩,
    fun hne => ?_⟩
  cases hto.permChange with
  | started c es m host command idle _ _ _ => exact ⟨c, es, host, idle, decode_permCommand_cases command⟩
  | round es _ _ step => exact absurd (by simp [step]) hne
  | reset lost es host => exact absurd host (hreset lost es)
  | power es host => exact absurd host (hpower es)
  | kept _ _ lastMode => exact absurd lastMode hne

/-- Settles O53: a rejection writes ERRCODE only while ERR is 0, and nothing else writes either field. -/
theorem errSticky : Obligations.ErrSticky := by
  intro v s t hstep hpower hreset
  rcases (stepIn_inv hstep).errors_cases hpower hreset with ⟨herr, hcode⟩ | ⟨c, es, e, host, cause, herr, hcode⟩
  · exact ⟨fun h => ⟨herr.trans h, hcode⟩, fun h h' => by simp [herr, h] at h', fun _ _ => hcode⟩
  · exact ⟨fun h => ⟨herr, by simpa [h] using hcode⟩,
      fun h _ => ⟨c, es, e, host, rejection_of_portCause cause, by simpa [h] using hcode⟩,
      fun _ h => by simp [herr] at h⟩

/-- Settles O54: of the cases of a step, only the sequencer's and an accepted codec write change S. -/
theorem lanesChange : Obligations.LanesChange := by
  intro v s t hstep hpower hreset hne
  cases stepIn_inv hstep with
  | seq es running quiet => exact .inl ⟨running, by simp, quiet.not_issue⟩
  | idle es _ _ => exact absurd rfl hne
  | rejected es c r e _ _ _ => exact absurd rfl hne
  | performed es c i _ _ command host effect =>
    rcases effect.lanes_cases with hsame | ⟨idle, hwrite⟩
    · exact absurd hsame hne
    · exact .inr ⟨idle, c, es, i, host, command, hwrite⟩
  | reset es lost host => exact absurd host (hreset lost es)
  | power es host => exact absurd host (hpower es)

/-- Settles O1, from the fields of `State.reset`. -/
theorem resetValues : Obligations.ResetValues :=
  ⟨fun x y => by simp [laneAt, Vector.get_eq_getElem], rfl, rfl, rfl, rfl, rfl, rfl, rfl, by decide⟩

/-- Settles O47, from the fields of `State.reset`. -/
theorem invReset : Obligations.InvReset := by
  simp [Obligations.InvReset, Inv]

end Sys2Proof.Safety

/-! PROOFS. The statements about 20_memory.md: a byte write as seen by byte reads, a lane as eight bytes, and the codec as a
bijection. -/

namespace Sys2Proof.Machine

/-! ## Bytes by offset -/

/-- Different state bytes lie in different lanes or at different places of one lane (20_memory.md R32). -/
theorem byte_place_inj {k l : Fin 200} (hx : byteX k = byteX l) (hy : byteY k = byteY l) (hshift : byteShift k = byteShift l) :
    k = l := by
  simp only [byteX, byteY, byteShift, Fin.ext_iff] at *; omega

@[simp] theorem byteOffset_inj {x y : Fin 5} {i j : Fin 8} : byteOffset x y i = byteOffset x y j ↔ i = j := by
  simp only [byteOffset, Fin.ext_iff]; omega

@[simp] theorem readByte_writeByte_same (A : Lanes) (k : Fin 200) (v : Byte) : readByte (writeByte A k v) k = v := by
  apply BitVec.eq_of_getLsbD_eq
  intro b hb
  have hin : byteShift k + b < 64 := by have := byteShift_lt k; omega
  rw [getLsbD_readByte, getLsbD_writeByte A k v _ hin]
  simp [hb]

/-- A byte write leaves every other state byte unchanged (20_memory.md R32). -/
theorem readByte_writeByte_ne {A : Lanes} {k l : Fin 200} {v : Byte} (h : k ≠ l) :
    readByte (writeByte A k v) l = readByte A l := by
  by_cases hlane : byteX k = byteX l ∧ byteY k = byteY l
  · obtain ⟨hx, hy⟩ := hlane
    have hshift : byteShift k ≠ byteShift l := fun hs => h (byte_place_inj hx hy hs)
    have hk := byteShift_lt k
    have hl := byteShift_lt l
    apply BitVec.eq_of_getLsbD_eq
    intro b hb
    rw [getLsbD_readByte, getLsbD_readByte, ← hx, ← hy, getLsbD_writeByte A k v _ (by omega), if_neg (by omega)]
  · simp only [readByte, laneAt_writeByte_ne hlane]

/-! ## A lane as eight bytes -/

/-- The lane whose byte j is `b j` (20_memory.md R33): the concatenation that `decodeBytes` builds each lane with. -/
def joinBytes (b : Fin 8 → Byte) : Word := b 7 ++ b 6 ++ b 5 ++ b 4 ++ b 3 ++ b 2 ++ b 1 ++ b 0

@[simp] theorem extractLsb'_joinBytes (b : Fin 8 → Byte) (j : Fin 8) : (joinBytes b).extractLsb' (8 * j.val) 8 = b j := by
  -- w is named because simp does not find the split of 64 into 56 + 8 by itself.
  fin_cases j <;>
    simp [joinBytes, BitVec.extractLsb'_append_eq_of_le (w := 8), BitVec.extractLsb'_append_eq_of_add_le (w := 8)]

theorem laneAt_decodeBytes (b : Bytes) (x y : Fin 5) :
    laneAt (decodeBytes b) x y = joinBytes fun j => b.get (byteOffset x y j) :=
  laneAt_ofLanes _ x y

theorem readByte_byteOffset (A : Lanes) (x y : Fin 5) (j : Fin 8) :
    readByte A (byteOffset x y j) = (laneAt A x y).extractLsb' (8 * j.val) 8 := by
  simp [readByte]

/-- Two lanes with the same eight bytes are the same lane. -/
theorem lane_ext_bytes {v w : Word} (h : ∀ j : Fin 8, v.extractLsb' (8 * j.val) 8 = w.extractLsb' (8 * j.val) 8) : v = w := by
  apply BitVec.eq_of_getLsbD_eq
  intro b hb
  have hbit := congrArg (fun u => u.getLsbD (b % 8)) (h ⟨b / 8, by omega⟩)
  simpa [BitVec.getLsbD_extractLsb', show b % 8 < 8 by omega, Nat.div_add_mod] using hbit

/-- Dec puts each byte of the buffer at its own offset (20_memory.md R35). -/
@[simp] theorem readByte_decodeBytes (b : Bytes) (k : Fin 200) : readByte (decodeBytes b) k = b.get k := by
  obtain ⟨j, hj⟩ := byteOffset_cover k
  rw [← hj, readByte_byteOffset, laneAt_decodeBytes, extractLsb'_joinBytes]

/-- Enc reads each byte of the array at its own offset (20_memory.md R35). -/
@[simp] theorem get_encodeBytes (A : Lanes) (k : Fin 200) : (encodeBytes A).get k = readByte A k := by
  simp [encodeBytes, Vector.get_eq_getElem]

/-- Byte writes at the places `js` of one lane, in order: a byte of that lane that was written holds what was written, and the
others are as they were. By induction on the list of places. -/
theorem readByte_foldl_writeByte (x y : Fin 5) (b : Fin 8 → Byte) (j : Fin 8) (js : List (Fin 8)) (A : Lanes) :
    readByte (js.foldl (fun B i => writeByte B (byteOffset x y i) (b i)) A) (byteOffset x y j) =
      if j ∈ js then b j else readByte A (byteOffset x y j) := by
  induction js generalizing A with
  | nil => rfl
  | cons i js ih =>
    rw [List.foldl_cons, ih]
    by_cases hij : i = j
    · subst hij; simp
    · have hoffset : byteOffset x y i ≠ byteOffset x y j := mt byteOffset_inj.1 hij
      simp [readByte_writeByte_ne hoffset, Ne.symm hij]

end Sys2Proof.Machine

namespace Sys2Proof.Safety

open Sys2Proof.Machine

/-- Settles O29: byte j of the lane is the byte written at place j, since the eight writes cover all places, and a lane is its
eight bytes. -/
theorem eightByteWritesMakeLane : Obligations.EightByteWritesMakeLane := by
  intro A x y b
  change laneAt _ x y = joinBytes b
  apply lane_ext_bytes
  intro j
  rw [← readByte_byteOffset, readByte_foldl_writeByte, if_pos (List.mem_finRange j), extractLsb'_joinBytes]

/-- Settles O30: Dec puts each byte at its own offset, Enc reads it there, and both a buffer and a lane array are their bytes. -/
theorem codecBijection : Obligations.CodecBijection := by
  constructor
  · intro b
    apply Vector.ext
    intro k hk
    exact (get_encodeBytes (decodeBytes b) ⟨k, hk⟩).trans (readByte_decodeBytes b ⟨k, hk⟩)
  · intro A
    apply lanes_ext_bytes
    intro k
    rw [readByte_decodeBytes, get_encodeBytes]

end Sys2Proof.Safety

/-! PROOFS. The statements about 30_encoding.md: the decoder and the encoder as inverses, the decode errors, the assembler, a step
as exec of the decoded command, and the pseudo-instructions that load and store S. -/

namespace Sys2Proof

variable {w : BitVec 32}

/-! ## Fields as shifts and masks of a word -/

theorem opcode_eq_iff_shift {o : BitVec 8} : opcode w = o ↔ w >>> 24 = o.setWidth 32 := by
  rw [opcode_eq_iff, ← BitVec.toNat_inj, BitVec.toNat_ushiftRight, Nat.shiftRight_eq_div_pow, BitVec.toNat_setWidth]
  omega

/-- The word whose set bits are the field `[lo + len - 1 : lo]`. -/
def fieldMask (lo len : Nat) : BitVec 32 := (BitVec.allOnes len).setWidth 32 <<< lo

/-- A field that lies in the word is not 0 exactly when the word has a bit in the field's mask. -/
theorem field_ne_zero_iff {lo len : Nat} (hlen : lo + len ≤ 32) : field w lo len ≠ 0 ↔ w &&& fieldMask lo len ≠ 0 := by
  have hmask : w &&& fieldMask lo len = (field w lo len).setWidth 32 <<< lo := by
    apply BitVec.eq_of_getLsbD_eq
    intro i hi
    by_cases hlo : i < lo
    · simp [fieldMask, field, hlo]
    · simp [fieldMask, field, hi, hlo, Nat.add_sub_of_le (Nat.le_of_not_lt hlo), Bool.and_comm]
  have hfield : field w lo len = (w &&& fieldMask lo len).extractLsb' lo len := by
    apply BitVec.eq_of_getLsbD_eq
    intro i hi
    simp [fieldMask, field, hi, show lo + i < 32 by omega]
  exact not_congr ⟨fun h => by simp [hmask, h], fun h => by simp [hfield, h]⟩

/-- A word meets the union of two masks when it meets one of them. -/
theorem and_or_ne_zero_iff {m m' : BitVec 32} : w &&& (m ||| m') ≠ 0 ↔ w &&& m ≠ 0 ∨ w &&& m' ≠ 0 := by
  rw [BitVec.and_or_distrib_left]
  exact BitVec.or_eq_zero_iff.not.trans not_and_or

/-- Shifting a field down and masking it reads the field. -/
theorem toNat_shift_and (w : BitVec 32) (lo : Nat) {len : Nat} (hlen : len < 32) :
    (w >>> lo &&& BitVec.ofNat 32 (2 ^ len - 1)).toNat = (field w lo len).toNat := by
  have hlt : 2 ^ len - 1 < 2 ^ 32 := Nat.lt_of_le_of_lt (Nat.sub_le _ _) (Nat.pow_lt_pow_right (by omega) hlen)
  rw [BitVec.toNat_and, BitVec.toNat_ofNat, Nat.mod_eq_of_lt hlt, Nat.and_two_pow_sub_one_eq_mod, BitVec.toNat_ushiftRight,
    Nat.shiftRight_eq_div_pow, field_toNat]

theorem not_coordOk_iff {lo : Nat} : ¬ coordOk (field w lo 3) ↔ 4 < (w >>> lo &&& 7) := by
  rw [BitVec.lt_def, show (7 : BitVec 32) = BitVec.ofNat 32 (2 ^ 3 - 1) from rfl, toNat_shift_and w lo (by omega)]
  simp [coordOk]

theorem not_offsetOk_iff {lo : Nat} : ¬ offsetOk (field w lo 8) ↔ 199 < (w >>> lo &&& 0xFF) := by
  rw [BitVec.lt_def, show (0xFF : BitVec 32) = BitVec.ofNat 32 (2 ^ 8 - 1) from rfl, toNat_shift_and w lo (by omega)]
  simp [offsetOk]

/-! ## The reserved bits of a format as one mask -/

/-- Format L reserves bits 23 to 15, 11 and 7 to 0 (30_encoding.md R49). -/
theorem laneReserved_iff : (field w 15 9 ≠ 0 ∨ field w 11 1 ≠ 0 ∨ field w 0 8 ≠ 0) ↔ w &&& 0x00FF88FF ≠ 0 := by
  rw [show (0x00FF88FF : BitVec 32) = fieldMask 15 9 ||| (fieldMask 11 1 ||| fieldMask 0 8) by decide,
    and_or_ne_zero_iff, and_or_ne_zero_iff, field_ne_zero_iff (by omega), field_ne_zero_iff (by omega),
    field_ne_zero_iff (by omega)]

/-- BYTE.WR reserves bits 23 to 16 (30_encoding.md R50). -/
theorem byteWrReserved_iff : field w 16 8 ≠ 0 ↔ w &&& 0x00FF0000 ≠ 0 := by
  rw [show (0x00FF0000 : BitVec 32) = fieldMask 16 8 by decide, field_ne_zero_iff (by omega)]

/-- BYTE.RD reserves bits 23 to 16 and 7 to 0 (30_encoding.md R50). -/
theorem byteRdReserved_iff : (field w 16 8 ≠ 0 ∨ field w 0 8 ≠ 0) ↔ w &&& 0x00FF00FF ≠ 0 := by
  rw [show (0x00FF00FF : BitVec 32) = fieldMask 16 8 ||| fieldMask 0 8 by decide, and_or_ne_zero_iff,
    field_ne_zero_iff (by omega), field_ne_zero_iff (by omega)]

/-- Format P reserves bits 23 to 1 (30_encoding.md R51). -/
theorem permReserved_iff : field w 1 23 ≠ 0 ↔ w &&& 0x00FFFFFE ≠ 0 := by
  rw [show (0x00FFFFFE : BitVec 32) = fieldMask 1 23 by decide, field_ne_zero_iff (by omega)]

/-- Format C reserves bits 23 to 0 (30_encoding.md R52). -/
theorem statusReserved_iff : field w 0 24 ≠ 0 ↔ w &&& 0x00FFFFFF ≠ 0 := by
  rw [show (0x00FFFFFF : BitVec 32) = fieldMask 0 24 by decide, field_ne_zero_iff (by omega)]

/-! ## What each format's decoder rejects -/

variable {e : ErrCode}

theorem decodeLane_eq_error_iff {mk : BitVec 3 → BitVec 3 → Instr} : decodeLane mk w = .error e ↔
    (.reservedBits = e ∧ w &&& 0x00FF88FF ≠ 0) ∨
    (.laneRange = e ∧ w &&& 0x00FF88FF = 0 ∧ (4 < (w >>> 8 &&& 7) ∨ 4 < (w >>> 12 &&& 7))) := by
  simp only [decodeLane, laneReserved_iff, not_coordOk_iff]
  split_ifs <;> simp_all

theorem decodeByteWr_eq_error_iff : decodeByteWr w = .error e ↔
    (.reservedBits = e ∧ w &&& 0x00FF0000 ≠ 0) ∨
    (.byteRange = e ∧ w &&& 0x00FF0000 = 0 ∧ 199 < (w >>> 8 &&& 0xFF)) := by
  simp only [decodeByteWr, byteWrReserved_iff, not_offsetOk_iff]
  split_ifs <;> simp_all

theorem decodeByteRd_eq_error_iff : decodeByteRd w = .error e ↔
    (.reservedBits = e ∧ w &&& 0x00FF00FF ≠ 0) ∨
    (.byteRange = e ∧ w &&& 0x00FF00FF = 0 ∧ 199 < (w >>> 8 &&& 0xFF)) := by
  simp only [decodeByteRd, byteRdReserved_iff, not_offsetOk_iff]
  split_ifs <;> simp_all

theorem decodePerm_eq_error_iff : decodePerm w = .error e ↔ .reservedBits = e ∧ w &&& 0x00FFFFFE ≠ 0 := by
  simp only [decodePerm, permReserved_iff]
  split_ifs <;> simp_all

theorem decodeStatus_eq_error_iff : decodeStatus w = .error e ↔ .reservedBits = e ∧ w &&& 0x00FFFFFF ≠ 0 := by
  simp only [decodeStatus, statusReserved_iff]
  split_ifs <;> simp_all

/-- What the decoder makes of a word, by its opcode (30_encoding.md R48). -/
theorem decode_eq_iff {r : Except ErrCode Instr} : decode w = r ↔
    (w >>> 24 = 0x01 ∧ decodeLane .laneWr w = r) ∨ (w >>> 24 = 0x02 ∧ decodeLane .laneRd w = r) ∨
    (w >>> 24 = 0x03 ∧ decodeByteWr w = r) ∨ (w >>> 24 = 0x04 ∧ decodeByteRd w = r) ∨
    (w >>> 24 = 0x10 ∧ decodePerm w = r) ∨ (w >>> 24 = 0x20 ∧ decodeStatus w = r) ∨
    (w >>> 24 ∉ [0x01#32, 0x02#32, 0x03#32, 0x04#32, 0x10#32, 0x20#32] ∧ .error .illegalOpcode = r) := by
  rcases opcode_cases w with h | h | h | h | h | h | ⟨hne, h⟩
  · rw [decode_of_laneWr h]; simp [opcode_eq_iff_shift.1 h]
  · rw [decode_of_laneRd h]; simp [opcode_eq_iff_shift.1 h]
  · rw [decode_of_byteWr h]; simp [opcode_eq_iff_shift.1 h]
  · rw [decode_of_byteRd h]; simp [opcode_eq_iff_shift.1 h]
  · rw [decode_of_perm h]; simp [opcode_eq_iff_shift.1 h]
  · rw [decode_of_status h]; simp [opcode_eq_iff_shift.1 h]
  · rw [h]; simp_all [opcode_eq_iff_shift]

/-- What the decoder rejects, error by error (30_encoding.md R55 to R58). -/
theorem decode_eq_error_iff : decode w = .error e ↔
    (.illegalOpcode = e ∧ w >>> 24 ∉ [0x01#32, 0x02#32, 0x03#32, 0x04#32, 0x10#32, 0x20#32]) ∨
    (.reservedBits = e ∧
      (((w >>> 24 = 0x01 ∨ w >>> 24 = 0x02) ∧ w &&& 0x00FF88FF ≠ 0) ∨ (w >>> 24 = 0x03 ∧ w &&& 0x00FF0000 ≠ 0) ∨
      (w >>> 24 = 0x04 ∧ w &&& 0x00FF00FF ≠ 0) ∨ (w >>> 24 = 0x10 ∧ w &&& 0x00FFFFFE ≠ 0) ∨
      (w >>> 24 = 0x20 ∧ w &&& 0x00FFFFFF ≠ 0))) ∨
    (.laneRange = e ∧ (w >>> 24 = 0x01 ∨ w >>> 24 = 0x02) ∧ w &&& 0x00FF88FF = 0 ∧
      (4 < (w >>> 8 &&& 7) ∨ 4 < (w >>> 12 &&& 7))) ∨
    (.byteRange = e ∧ ((w >>> 24 = 0x03 ∧ w &&& 0x00FF0000 = 0) ∨ (w >>> 24 = 0x04 ∧ w &&& 0x00FF00FF = 0)) ∧
      199 < (w >>> 8 &&& 0xFF)) := by
  rw [decode_eq_iff, decodeLane_eq_error_iff, decodeLane_eq_error_iff, decodeByteWr_eq_error_iff, decodeByteRd_eq_error_iff,
    decodePerm_eq_error_iff, decodeStatus_eq_error_iff, Except.error.injEq]
  -- For each error, the formats that cannot give it drop out.
  cases e <;> simp only [reduceCtorEq, true_and, false_and, and_false, or_false, false_or, and_true, or_and_right, or_assoc,
    and_assoc]

/-! ## Words as their fields -/

/-- A word is a format L word exactly when its fields are that word's (30_encoding.md R49). -/
theorem eq_encodeLane_iff {o : BitVec 8} {x y : BitVec 3} : w = encodeLane o x y ↔
    opcode w = o ∧ ¬ (field w 15 9 ≠ 0 ∨ field w 11 1 ≠ 0 ∨ field w 0 8 ≠ 0) ∧ field w 8 3 = x ∧ field w 12 3 = y := by
  rw [← BitVec.toNat_inj, encodeLane_toNat]
  simp only [not_or, not_not, opcode_eq_iff, field_eq_iff, BitVec.ofNat_eq_ofNat, BitVec.toNat_ofNat]
  omega

/-- A word is a format B word exactly when its fields are that word's (30_encoding.md R50). -/
theorem eq_encodeByte_iff {o ofs d : BitVec 8} : w = encodeByte o ofs d ↔
    opcode w = o ∧ field w 16 8 = 0 ∧ field w 8 8 = ofs ∧ field w 0 8 = d := by
  rw [← BitVec.toNat_inj, encodeByte_toNat]
  simp only [opcode_eq_iff, field_eq_iff, BitVec.ofNat_eq_ofNat, BitVec.toNat_ofNat]
  omega

/-- A word is a format P word exactly when its fields are that word's (30_encoding.md R51). -/
theorem eq_encodePerm_iff {b : BitVec 1} : w = 0x10#8 ++ 0#23 ++ b ↔
    opcode w = 0x10 ∧ field w 1 23 = 0 ∧ field w 0 1 = b := by
  rw [← BitVec.toNat_inj]
  simp only [opcode_eq_iff, field_eq_iff, toNat_append_add, BitVec.ofNat_eq_ofNat, BitVec.toNat_ofNat]
  omega

/-- The one format C word, by its fields (30_encoding.md R52). -/
theorem eq_encodeStatus_iff : w = 0x20#8 ++ 0#24 ↔ opcode w = 0x20 ∧ field w 0 24 = 0 := by
  rw [← BitVec.toNat_inj]
  simp only [opcode_eq_iff, field_eq_iff, toNat_append_add, BitVec.ofNat_eq_ofNat, BitVec.toNat_ofNat]
  omega

/-! ## What each format's decoder accepts -/

variable {i : Instr}

theorem decodeLane_eq_ok_iff {mk : BitVec 3 → BitVec 3 → Instr} : decodeLane mk w = .ok i ↔
    ¬ (field w 15 9 ≠ 0 ∨ field w 11 1 ≠ 0 ∨ field w 0 8 ≠ 0) ∧ (coordOk (field w 8 3) && coordOk (field w 12 3)) = true ∧
      mk (field w 8 3) (field w 12 3) = i := by
  unfold decodeLane
  split_ifs <;> grind

theorem decodeByteWr_eq_ok_iff : decodeByteWr w = .ok i ↔
    field w 16 8 = 0 ∧ offsetOk (field w 8 8) = true ∧ .byteWr (field w 8 8) (field w 0 8) = i := by
  unfold decodeByteWr
  split_ifs <;> simp_all

theorem decodeByteRd_eq_ok_iff : decodeByteRd w = .ok i ↔
    (field w 16 8 = 0 ∧ field w 0 8 = 0) ∧ offsetOk (field w 8 8) = true ∧ .byteRd (field w 8 8) = i := by
  unfold decodeByteRd
  split_ifs <;> grind

theorem decodePerm_eq_ok_iff : decodePerm w = .ok i ↔
    field w 1 23 = 0 ∧ ((field w 0 1 = 0 ∧ .permFull = i) ∨ (field w 0 1 = 1 ∧ .permHalf = i)) := by
  have hbit : field w 0 1 = 1 ↔ ¬ field w 0 1 = 0 := by
    generalize field w 0 1 = b
    revert b; decide
  unfold decodePerm
  split_ifs <;> simp_all

theorem decodeStatus_eq_ok_iff : decodeStatus w = .ok i ↔ field w 0 24 = 0 ∧ .statusRd = i := by
  unfold decodeStatus
  split_ifs <;> simp_all

/-- A word of a well-formed command decodes to it: each format reads back the fields that it wrote. -/
theorem decode_of_eq_encode (hwf : i.wellFormed = true) (hw : w = encode i) : decode w = .ok i := by
  cases i with
  | laneWr x y =>
    obtain ⟨ho, hz, rfl, rfl⟩ := eq_encodeLane_iff.1 hw
    rw [decode_of_laneWr ho]; exact decodeLane_eq_ok_iff.2 ⟨hz, hwf, rfl⟩
  | laneRd x y =>
    obtain ⟨ho, hz, rfl, rfl⟩ := eq_encodeLane_iff.1 hw
    rw [decode_of_laneRd ho]; exact decodeLane_eq_ok_iff.2 ⟨hz, hwf, rfl⟩
  | byteWr ofs d =>
    obtain ⟨ho, hz, rfl, rfl⟩ := eq_encodeByte_iff.1 hw
    rw [decode_of_byteWr ho]; exact decodeByteWr_eq_ok_iff.2 ⟨hz, hwf, rfl⟩
  | byteRd ofs =>
    obtain ⟨ho, hz, rfl, hd⟩ := eq_encodeByte_iff.1 hw
    rw [decode_of_byteRd ho]; exact decodeByteRd_eq_ok_iff.2 ⟨⟨hz, hd⟩, hwf, rfl⟩
  | permFull =>
    obtain ⟨ho, hz, hb⟩ := eq_encodePerm_iff.1 hw
    rw [decode_of_perm ho]; exact decodePerm_eq_ok_iff.2 ⟨hz, .inl ⟨hb, rfl⟩⟩
  | permHalf =>
    obtain ⟨ho, hz, hb⟩ := eq_encodePerm_iff.1 hw
    rw [decode_of_perm ho]; exact decodePerm_eq_ok_iff.2 ⟨hz, .inr ⟨hb, rfl⟩⟩
  | statusRd =>
    obtain ⟨ho, hz⟩ := eq_encodeStatus_iff.1 hw
    rw [decode_of_status ho]; exact decodeStatus_eq_ok_iff.2 ⟨hz, rfl⟩

/-- A word that decodes to a command is put together again from its fields: the decoder checks every bit that is no operand. -/
theorem eq_encode_of_decode (h : decode w = .ok i) : w = encode i := by
  rcases opcode_cases w with ho | ho | ho | ho | ho | ho | ⟨_, ho⟩
  · rw [decode_of_laneWr ho] at h
    obtain ⟨hz, -, rfl⟩ := decodeLane_eq_ok_iff.1 h
    exact eq_encodeLane_iff.2 ⟨ho, hz, rfl, rfl⟩
  · rw [decode_of_laneRd ho] at h
    obtain ⟨hz, -, rfl⟩ := decodeLane_eq_ok_iff.1 h
    exact eq_encodeLane_iff.2 ⟨ho, hz, rfl, rfl⟩
  · rw [decode_of_byteWr ho] at h
    obtain ⟨hz, -, rfl⟩ := decodeByteWr_eq_ok_iff.1 h
    exact eq_encodeByte_iff.2 ⟨ho, hz, rfl, rfl⟩
  · rw [decode_of_byteRd ho] at h
    obtain ⟨⟨hz, hd⟩, -, rfl⟩ := decodeByteRd_eq_ok_iff.1 h
    exact eq_encodeByte_iff.2 ⟨ho, hz, rfl, hd⟩
  · rw [decode_of_perm ho] at h
    obtain ⟨hz, ⟨hb, rfl⟩ | ⟨hb, rfl⟩⟩ := decodePerm_eq_ok_iff.1 h
    · exact eq_encodePerm_iff.2 ⟨ho, hz, hb⟩
    · exact eq_encodePerm_iff.2 ⟨ho, hz, hb⟩
  · rw [decode_of_status ho] at h
    obtain ⟨hz, rfl⟩ := decodeStatus_eq_ok_iff.1 h
    exact eq_encodeStatus_iff.2 ⟨ho, hz⟩
  · rw [ho] at h; cases h

end Sys2Proof

namespace Sys2Proof.Machine

/-! ## The assembler -/

theorem encodeLane_ofNat (o : BitVec 8) {x y : Nat} (hx : x ≤ 4) (hy : y ≤ 4) :
    encodeLane o (BitVec.ofNat 3 x) (BitVec.ofNat 3 y) = BitVec.ofNat 32 (o.toNat * 2 ^ 24 + y * 2 ^ 12 + x * 2 ^ 8) := by
  apply BitVec.eq_of_toNat_eq
  simp only [encodeLane_toNat, BitVec.toNat_ofNat]; omega

theorem encodeByte_ofNat (o : BitVec 8) {ofs d : Nat} (hofs : ofs ≤ 199) (hd : d ≤ 255) :
    encodeByte o (BitVec.ofNat 8 ofs) (BitVec.ofNat 8 d) = BitVec.ofNat 32 (o.toNat * 2 ^ 24 + ofs * 2 ^ 8 + d) := by
  apply BitVec.eq_of_toNat_eq
  simp only [encodeByte_toNat, BitVec.toNat_ofNat]; omega

/-! ## A command on the port -/

@[simp] theorem State.reject_response (s : State) (isRead : Bool) (e : ErrCode) : (s.reject isRead e).response = none := by
  cases isRead <;> rfl

/-- A word that is no command is rejected with its decode error by a block that has been reset (30_encoding.md R55). -/
theorem issueCommand_of_decode_error {c : Command} {s : State} {e : ErrCode} (hd : decode c.word = .error e)
    (hseen : s.resetSeen = true) : ∃ r, issueCommand c s = .next ((s.withDin c.din).reject r e) :=
  ⟨isReadOpcode c.word, by simp [issueCommand, hd, rejectWord, hseen]⟩

theorem issueCommand_of_decode_ok {c : Command} {s : State} {i : Instr} (hd : decode c.word = .ok i) :
    issueCommand c s = exec i (s.withDin c.din) := by
  simp [issueCommand, hd]

/-! ## The data port -/

open Safety in
/-- The checks common to all commands do not read the data port, and a rejection keeps what stands there. -/
theorem agree_runCommand_withDin {α : Type} {s : State} {d : Word} (c : CommandClass) (operand : Except ErrCode α)
    {f g : α → State} (hperform : ∀ a, g a = (f a).withDin d) :
    Agree (fun t t' => t' = t.withDin d) (runCommand s c operand f) (runCommand (s.withDin d) c operand g) := by
  cases hseen : s.resetSeen with
  | false => simp [runCommand, hseen, Agree]
  | true =>
    cases operand with
    | error e => rw [runCommand_range hseen, runCommand_range (s := s.withDin d) hseen]; rfl
    | ok a =>
      by_cases hbusy : s.busy = true ∧ c.runsWhileBusy = false
      · rw [runCommand_busy hseen hbusy.1 hbusy.2, runCommand_busy (s := s.withDin d) hseen hbusy.1 hbusy.2]; rfl
      · have hrun : s.busy = false ∨ c.runsWhileBusy = true := by simpa [Decidable.or_iff_not_imp_left] using hbusy
        rw [runCommand_perform hseen hrun, runCommand_perform (s := s.withDin d) hseen hrun]; exact hperform a

/-! ## Lanes by index -/

/-- The x coordinate of lane i (10_state.md R16). -/
def laneX (i : Fin 25) : Fin 5 := ⟨i.val % 5, by omega⟩

/-- The y coordinate of lane i (10_state.md R16). -/
def laneY (i : Fin 25) : Fin 5 := ⟨i.val / 5, by omega⟩

@[simp] theorem laneIndex_laneX_laneY (i : Fin 25) : laneIndex (laneX i) (laneY i) = i :=
  Fin.ext (Nat.mod_add_div i.val 5)

@[simp] theorem laneAt_laneX_laneY (A : Lanes) (i : Fin 25) : laneAt A (laneX i) (laneY i) = A.get i := by
  simp [laneAt]

theorem get_setLane_laneX_laneY (A : Lanes) (i k : Fin 25) (v : Word) :
    (setLane A (laneX i) (laneY i) v).get k = if i = k then v else A.get k := by
  simp only [← laneAt_laneX_laneY, laneAt_setLane, ← laneIndex_inj, laneIndex_laneX_laneY]

/-- Coordinates written into the operand fields come back as coordinates (30_encoding.md R53). -/
theorem laneOperand_ofNat (x y : Fin 5) : laneOperand (BitVec.ofNat 3 x.val) (BitVec.ofNat 3 y.val) = .ok (x, y) := by
  have hval (z : Fin 5) : (BitVec.ofNat 3 z.val).toNat = z.val := by simp; omega
  rw [laneOperand_ok (by rw [hval]; exact x.isLt) (by rw [hval]; exact y.isLt)]
  simp [hval]

theorem coordOk_ofNat (x : Fin 5) : coordOk (BitVec.ofNat 3 x.val) = true := by
  revert x; decide

/-! ## The commands of `state.load` and `state.store` -/

/-- LANE.WR of lane i with the operand v, a command of `state.load` (30_encoding.md R61). -/
def writeLaneCommand (i : Fin 25) (v : Word) : Command :=
  ⟨encode (.laneWr (BitVec.ofNat 3 (laneX i).val) (BitVec.ofNat 3 (laneY i).val)), v⟩

/-- LANE.RD of lane i, a command of `state.store` (30_encoding.md R61). -/
def readLaneCommand (i : Fin 25) : Command :=
  ⟨encode (.laneRd (BitVec.ofNat 3 (laneX i).val) (BitVec.ofNat 3 (laneY i).val)), 0⟩

theorem assemble_laneWriLine (i : Fin 25) (v : Word) : assemble (laneWriLine i.val v.toNat) = some (writeLaneCommand i v) := by
  have hx : i.val % 5 ≤ 4 := by omega
  have hy : i.val / 5 ≤ 4 := by omega
  simp [laneWriLine, assemble, hx, hy, v.isLt, writeLaneCommand, laneX, laneY]

theorem assemble_laneRd (i : Fin 25) : assemble (.laneRd (i.val % 5) (i.val / 5)) = some (readLaneCommand i) := by
  have hx : i.val % 5 ≤ 4 := by omega
  have hy : i.val / 5 ≤ 4 := by omega
  simp [assemble, hx, hy, readLaneCommand, laneX, laneY]

theorem assemble_stateLoad (b : Bytes) : (expand (.stateLoad b)).mapM assemble =
    some ((List.finRange 25).map fun i => writeLaneCommand i ((decodeBytes b).get i)) := by
  have hline : assemble ∘ (fun i : Fin 25 => laneWriLine i.val ((decodeBytes b).get i).toNat) =
      fun i => pure (writeLaneCommand i ((decodeBytes b).get i)) := funext fun i => assemble_laneWriLine i _
  rw [expand, List.mapM_map, hline, List.mapM_pure]; rfl

theorem assemble_stateStore : (expand .stateStore).mapM assemble = some ((List.finRange 25).map readLaneCommand) := by
  have hline : assemble ∘ (fun i : Fin 25 => AsmLine.laneRd (i.val % 5) (i.val / 5)) = fun i => pure (readLaneCommand i) :=
    funext assemble_laneRd
  rw [expand, List.mapM_map, hline, List.mapM_pure]; rfl

theorem issueCommand_writeLane {s : State} (hseen : s.resetSeen = true) (hidle : s.busy = false) (i : Fin 25) (v : Word) :
    issueCommand (writeLaneCommand i v) s =
      .next (((s.withDin v).withLanes (setLane s.lanes (laneX i) (laneY i) v)).answer .silent) := by
  have hd : decode (writeLaneCommand i v).word = .ok (.laneWr (BitVec.ofNat 3 (laneX i).val) (BitVec.ofNat 3 (laneY i).val)) :=
    decode_of_eq_encode (by simp [Instr.wellFormed, coordOk_ofNat]) rfl
  rw [issueCommand_of_decode_ok hd, exec_laneWr, laneOperand_ofNat]
  exact runCommand_perform hseen (.inl hidle)

theorem issueCommand_readLane {s : State} (hseen : s.resetSeen = true) (hidle : s.busy = false) (i : Fin 25) :
    issueCommand (readLaneCommand i) s = .next ((s.withDin 0).answer (.data (laneAt s.lanes (laneX i) (laneY i)))) := by
  have hd : decode (readLaneCommand i).word = .ok (.laneRd (BitVec.ofNat 3 (laneX i).val) (BitVec.ofNat 3 (laneY i).val)) :=
    decode_of_eq_encode (by simp [Instr.wellFormed, coordOk_ofNat]) rfl
  rw [issueCommand_of_decode_ok hd, exec_laneRd, laneOperand_ofNat]
  exact runCommand_perform hseen (.inl hidle)

end Sys2Proof.Machine

namespace Sys2Proof.Safety

open Sys2Proof.Machine

/-! ## A command in a run -/

/-- In a run that goes on, a step in which the host issues a command is that command on the port (30_encoding.md R47). -/
theorem stepIn_issue {v : View} {s : State} {c : Command} {es : List HostEvent} (hgo : Going v s)
    (hhost : s.host = .issue c :: es) : stepIn v s = issueCommand c (s.withHost es) := by
  rw [stepIn_going hgo, slot_cons hhost]; rfl

/-- What the three statements about decode errors say of the block (60_exceptions.md R95, R96). -/
theorem rejectedWith_of_decode_error {w : BitVec 32} {e : ErrCode} (hd : decode w = .error e) : RejectedWith w (errorCode e) := by
  intro v s din es hgo hseen herr hhost
  obtain ⟨r, h⟩ := issueCommand_of_decode_error (c := ⟨w, din⟩) (s := s.withHost es) hd hseen
  exact ⟨_, (stepIn_issue hgo hhost).trans h, rfl, rfl, by simp [herr], by simp⟩

/-! ## The runs of `state.load` and `state.store` -/

/-- An idle block that has been reset and whose run has not stopped. -/
structure Ready (v : View) (s : State) : Prop where
  going : Going v s
  seen : s.resetSeen = true
  idle : s.busy = false

/-- What accepted codec commands leave of a block, the host having come to `es`: all but S and the ports. -/
structure RanTo (s t : State) (es : List HostEvent) : Prop where
  seen : t.resetSeen = s.resetSeen
  busy : t.busy = s.busy
  err : t.err = s.err
  errcode : t.errcode = s.errcode
  fault : t.fault = s.fault
  host : t.host = es

theorem RanTo.trans {s t u : State} {es es' : List HostEvent} (h : RanTo s t es) (h' : RanTo t u es') : RanTo s u es' :=
  ⟨h'.seen.trans h.seen, h'.busy.trans h.busy, h'.err.trans h.err, h'.errcode.trans h.errcode, h'.fault.trans h.fault, h'.host⟩

theorem Ready.of_ranTo {v : View} {s t : State} {es : List HostEvent} (hs : Ready v s) (h : RanTo s t es) : Ready v t :=
  ⟨hs.going.imp_right h.fault.trans, h.seen.trans hs.seen, h.busy.trans hs.idle⟩

theorem Ready.stepIn_writeLane {v : View} {s : State} {es : List HostEvent} {i : Fin 25} {w : Word} (hs : Ready v s)
    (hhost : s.host = .issue (writeLaneCommand i w) :: es) :
    ∃ t, stepIn v s = .next t ∧ RanTo s t es ∧ t.lanes = setLane s.lanes (laneX i) (laneY i) w :=
  ⟨_, (stepIn_issue hs.going hhost).trans (issueCommand_writeLane (s := s.withHost es) hs.seen hs.idle i w),
    ⟨rfl, rfl, rfl, rfl, rfl, rfl⟩, rfl⟩

theorem Ready.stepIn_readLane {v : View} {s : State} {es : List HostEvent} {i : Fin 25} (hs : Ready v s)
    (hhost : s.host = .issue (readLaneCommand i) :: es) :
    ∃ t, stepIn v s = .next t ∧ RanTo s t es ∧ t.lanes = s.lanes ∧ t.response = some (s.lanes.get i) :=
  ⟨_, (stepIn_issue hs.going hhost).trans (issueCommand_readLane (s := s.withHost es) hs.seen hs.idle i),
    ⟨rfl, rfl, rfl, rfl, rfl, rfl⟩, rfl, congrArg some (laneAt_laneX_laneY s.lanes i)⟩

/-- LANE.WR of the lanes `is` of an array, in order: those lanes of S are the array's, the others as they were. By induction on
the list of lanes. -/
theorem runSteps_writeLanes {v : View} (B : Lanes) (is : List (Fin 25)) {s : State} {es : List HostEvent} (hs : Ready v s)
    (hhost : s.host = (is.map fun i => .issue (writeLaneCommand i (B.get i))) ++ es) :
    ∃ t, runSteps v is.length s = .next t ∧ RanTo s t es ∧
      ∀ k, t.lanes.get k = if k ∈ is then B.get k else s.lanes.get k := by
  induction is generalizing s with
  | nil => exact ⟨s, rfl, ⟨rfl, rfl, rfl, rfl, rfl, hhost⟩, fun _ => rfl⟩
  | cons i is ih =>
    obtain ⟨s', hstep, hran, hlanes⟩ := hs.stepIn_writeLane hhost
    obtain ⟨t, hrun, hran', hget⟩ := ih (hs.of_ranTo hran) hran.host
    refine ⟨t, (runSteps_step hstep).trans hrun, hran.trans hran', fun k => ?_⟩
    rw [hget, hlanes, get_setLane_laneX_laneY]
    by_cases hk : i = k
    · subst hk; simp
    · simp [hk, Ne.symm hk]

/-- LANE.RD of the lanes `is`, in order: the responses are those lanes of S, and S is as it was. By induction on the list of
lanes. -/
theorem runSteps_readLanes {v : View} (is : List (Fin 25)) {s : State} {es : List HostEvent} (hs : Ready v s)
    (hhost : s.host = (is.map fun i => .issue (readLaneCommand i)) ++ es) :
    ∃ t, runSteps v is.length s = .next t ∧ RanTo s t es ∧ t.lanes = s.lanes ∧
      responses v is.length s = is.map fun i => some (s.lanes.get i) := by
  induction is generalizing s with
  | nil => exact ⟨s, rfl, ⟨rfl, rfl, rfl, rfl, rfl, hhost⟩, rfl, rfl⟩
  | cons i is ih =>
    obtain ⟨s', hstep, hran, hlanes, hresp⟩ := hs.stepIn_readLane hhost
    obtain ⟨t, hrun, hran', hkept, hrest⟩ := ih (hs.of_ranTo hran) hran.host
    refine ⟨t, (runSteps_step hstep).trans hrun, hran.trans hran', hkept.trans hlanes, ?_⟩
    rw [List.length_cons, responses_step hstep, hrest, hresp, hlanes, List.map_cons]

/-- `state.load` writes every lane (30_encoding.md R61). -/
theorem runSteps_stateLoad {v : View} (b : Bytes) {s : State} {es : List HostEvent} (hs : Ready v s)
    (hhost : s.host = ((List.finRange 25).map fun i => writeLaneCommand i ((decodeBytes b).get i)).map HostEvent.issue ++ es) :
    ∃ t, runSteps v 25 s = .next t ∧ RanTo s t es ∧ t.lanes = decodeBytes b := by
  obtain ⟨t, hrun, hran, hget⟩ :=
    runSteps_writeLanes (decodeBytes b) (List.finRange 25) hs (by simpa [Function.comp_def] using hhost)
  rw [List.length_finRange] at hrun
  refine ⟨t, hrun, hran, Vector.ext fun k hk => ?_⟩
  simpa [Vector.get_eq_getElem] using hget ⟨k, hk⟩

/-- `state.store` reads every lane, in the order in which Enc takes them (30_encoding.md R61, 20_memory.md R35). -/
theorem runSteps_stateStore {v : View} {s : State} {es : List HostEvent} (hs : Ready v s)
    (hhost : s.host = ((List.finRange 25).map readLaneCommand).map HostEvent.issue ++ es) :
    ∃ t, runSteps v 25 s = .next t ∧ RanTo s t es ∧ t.lanes = s.lanes ∧
      storedBytes (responses v 25 s) = some (encodeBytes s.lanes) := by
  obtain ⟨t, hrun, hran, hkept, hresp⟩ := runSteps_readLanes (List.finRange 25) hs (by simpa [Function.comp_def] using hhost)
  rw [List.length_finRange] at hrun hresp
  have hall : (List.finRange 25).map (fun i => some (s.lanes.get i)) = s.lanes.toList.map some := by
    apply List.ext_getElem <;> simp [Vector.get_eq_getElem]
  exact ⟨t, hrun, hran, hkept, by rw [hresp, hall, storedBytes_some]⟩

/-! ## The obligations -/

/-- Settles O8: the fields of a command's word are the command's operands, and its reserved bits are 0. -/
theorem decodeEncode : Obligations.DecodeEncode :=
  fun _ hwf => decode_of_eq_encode hwf rfl

/-- Settles O9: the decoder gives well-formed commands only, and a word is its fields. -/
theorem encodeDecode : Obligations.EncodeDecode :=
  fun _ _ h => ⟨decode_wellFormed h, (eq_encode_of_decode h).symm⟩

/-- Settles O10: no format's decoder gives this error, so the opcode alone decides; the count evaluates that test. -/
theorem illegalOpcodeRejected : Obligations.IllegalOpcodeRejected := by
  have hiff (w : BitVec 32) :
      decode w = .error .illegalOpcode ↔ w >>> 24 ∉ [0x01#32, 0x02#32, 0x03#32, 0x04#32, 0x10#32, 0x20#32] := by
    simp [decode_eq_error_iff]
  refine ⟨hiff, ?_, fun w hw => rejectedWith_of_decode_error hw⟩
  simp only [hiff]
  decide +kernel

/-- Settles O11: a format's reserved fields are 0 exactly when its mask meets no bit of the word. -/
theorem reservedBitsRejected : Obligations.ReservedBitsRejected :=
  ⟨fun w => by simp [decode_eq_error_iff], fun _ hw => rejectedWith_of_decode_error hw⟩

/-- Settles O12: the range is checked once no reserved bit is set, and a field is its shifted and masked word. -/
theorem rangeRejected : Obligations.RangeRejected :=
  ⟨fun w => ⟨by simp [decode_eq_error_iff], by simp [decode_eq_error_iff]⟩,
    fun w => ⟨fun hw => rejectedWith_of_decode_error hw, fun hw => rejectedWith_of_decode_error hw⟩⟩

/-- Settles O13: a line's word is its fields put together as numbers, and inside the operands' ranges no field is cut. -/
theorem assemblerEncodes : Obligations.AssemblerEncodes := by
  refine ⟨fun x y v => ?_, fun x y => ?_, fun ofs d => ?_, fun ofs => ?_, by decide, by decide, by decide⟩
  · exact if_ctx_congr Iff.rfl (fun h => congrArg (fun w => some (Command.mk w _)) (encodeLane_ofNat 0x01 h.1 h.2.1))
      fun _ => rfl
  · exact if_ctx_congr Iff.rfl (fun h => congrArg (fun w => some (Command.mk w _)) (encodeLane_ofNat 0x02 h.1 h.2)) fun _ => rfl
  · exact if_ctx_congr Iff.rfl (fun h => congrArg (fun w => some (Command.mk w _)) (encodeByte_ofNat 0x03 h.1 h.2)) fun _ => rfl
  · exact if_ctx_congr Iff.rfl (fun h => congrArg (fun w => some (Command.mk w _)) (encodeByte_ofNat 0x04 h (Nat.zero_le 255)))
      fun _ => rfl

/-- Settles O27: no other command's effect reads the port, and neither do the checks before it. -/
theorem onlyLaneWrReadsDin : Obligations.OnlyLaneWrReadsDin := by
  intro i s d hne
  cases i with
  | laneWr x y => exact absurd rfl (hne x y)
  | laneRd x y => rw [exec_laneRd, exec_laneRd]; exact agree_runCommand_withDin _ _ fun _ => rfl
  | byteWr ofs data8 => rw [exec_byteWr, exec_byteWr]; exact agree_runCommand_withDin _ _ fun _ => rfl
  | byteRd ofs => rw [exec_byteRd, exec_byteRd]; exact agree_runCommand_withDin _ _ fun _ => rfl
  | permFull => rw [exec_permFull, exec_permFull]; exact agree_runCommand_withDin _ _ fun _ => rfl
  | permHalf => rw [exec_permHalf, exec_permHalf]; exact agree_runCommand_withDin _ _ fun _ => rfl
  | statusRd => rw [exec_statusRd, exec_statusRd]; exact agree_runCommand_withDin _ _ fun _ => rfl

/-- Settles O31: the 25 lines write all 25 lanes, and Enc undoes Dec. -/
theorem stateLoadFillsS : Obligations.StateLoadFillsS := by
  intro b
  refine ⟨_, assemble_stateLoad b, by simp, fun v s es hgo hseen hidle hhost => ?_⟩
  obtain ⟨t, hrun, hran, hlanes⟩ := runSteps_stateLoad b ⟨hgo, hseen, hidle⟩ hhost
  exact ⟨t, hrun, hlanes, by rw [hlanes, codecBijection.1 b], hran.err, hran.errcode, hran.fault, hran.host⟩

/-- Settles O58: the 25 lines read all 25 lanes of S; a `state.load` before them leaves the block ready, S holding Dec of the
buffer, and Enc undoes Dec. -/
theorem stateStoreReturnsS : Obligations.StateStoreReturnsS := by
  refine ⟨_, assemble_stateStore, by simp, fun v s es hgo hseen hidle hhost => ?_, fun b => ⟨_, assemble_stateLoad b, ?_⟩⟩
  · obtain ⟨t, hrun, hran, hkept, hbytes⟩ := runSteps_stateStore ⟨hgo, hseen, hidle⟩ hhost
    exact ⟨t, hrun, hbytes, hkept, hran.err, hran.errcode, hran.fault, hran.host⟩
  · intro v s es hgo hseen hidle hhost
    have hs : Ready v s := ⟨hgo, hseen, hidle⟩
    obtain ⟨t, hload, hran, hlanes⟩ := runSteps_stateLoad b hs hhost
    obtain ⟨u, hstore, hran', _, hbytes⟩ := runSteps_stateStore (hs.of_ranTo hran) hran.host
    exact ⟨t, u, hload, hstore, by rw [hbytes, hlanes, codecBijection.1 b], hran'.host⟩

/-- Settles O7, by evaluation of the decoder on the seven words. -/
theorem decodeWords : Obligations.DecodeWords := by
  unfold Obligations.DecodeWords
  decide

/-- Settles O14: in both views a run that goes on takes the slot, and a word that decodes is executed. -/
theorem stepRunsDecoded : Obligations.StepRunsDecoded := by
  intro s c es i hhost hd
  have hrun {v : View} (hgo : Going v s) : stepIn v s = exec i ((s.withHost es).withDin c.din) :=
    (stepIn_issue hgo hhost).trans (issueCommand_of_decode_ok hd)
  exact ⟨fun hf => hrun (v := .model) (.inr hf), hrun (.inl rfl)⟩

end Sys2Proof.Safety

/-! PROOFS. The statements about 40_codec.md: what each codec command does in an idle block, and which bytes a command may
change. -/

namespace Sys2Proof.Machine

/-! ## Operands and the values they name -/

/-- An offset written into the operand field comes back as the offset (30_encoding.md R53). -/
theorem byteOperand_ofNat (k : Fin 200) : byteOperand (BitVec.ofNat 8 k.val) = .ok k := by
  have hval : (BitVec.ofNat 8 k.val).toNat = k.val := by simp; omega
  rw [byteOperand_ok (by rw [hval]; exact k.isLt)]
  simp [hval]

theorem laneOperand_val {x y : BitVec 3} {p : Fin 5 × Fin 5} (h : laneOperand x y = .ok p) :
    p.1.val = x.toNat ∧ p.2.val = y.toNat := by
  rcases laneOperand_cases x y with ⟨_, _, hok⟩ | ⟨_, herr⟩
  · cases hok.symm.trans h; exact ⟨rfl, rfl⟩
  · cases herr.symm.trans h

theorem byteOperand_val {ofs : BitVec 8} {k : Fin 200} (h : byteOperand ofs = .ok k) : k.val = ofs.toNat := by
  rcases byteOperand_cases ofs with ⟨_, hok⟩ | ⟨_, herr⟩
  · cases hok.symm.trans h; rfl
  · cases herr.symm.trans h

/-! ## The codec commands, accepted -/

section Accepted

variable {s : State} (hseen : s.resetSeen = true) (hidle : s.busy = false)
include hseen hidle

theorem exec_laneWr_idle (x y : Fin 5) : exec (.laneWr (BitVec.ofNat 3 x.val) (BitVec.ofNat 3 y.val)) s =
    .next ((s.withLanes (setLane s.lanes x y s.din)).answer .silent) := by
  rw [exec_laneWr, laneOperand_ofNat]
  exact runCommand_perform hseen (.inl hidle)

theorem exec_laneRd_idle (x y : Fin 5) : exec (.laneRd (BitVec.ofNat 3 x.val) (BitVec.ofNat 3 y.val)) s =
    .next (s.answer (.data (laneAt s.lanes x y))) := by
  rw [exec_laneRd, laneOperand_ofNat]
  exact runCommand_perform hseen (.inl hidle)

theorem exec_byteWr_idle (k : Fin 200) (d : Byte) : exec (.byteWr (BitVec.ofNat 8 k.val) d) s =
    .next ((s.withLanes (writeByte s.lanes k d)).answer .silent) := by
  rw [exec_byteWr, byteOperand_ofNat]
  exact runCommand_perform hseen (.inl hidle)

theorem exec_byteRd_idle (k : Fin 200) : exec (.byteRd (BitVec.ofNat 8 k.val)) s =
    .next (s.answer (.data ((readByte s.lanes k).setWidth 64))) := by
  rw [exec_byteRd, byteOperand_ofNat]
  exact runCommand_perform hseen (.inl hidle)

end Accepted

@[simp] theorem State.answer_silent_response (s : State) : (s.answer .silent).response = none := rfl

@[simp] theorem State.answer_data_response (s : State) (v : Word) : (s.answer (.data v)).response = some v := rfl

/-- A write of S and of the response port is undone by writing both back: nothing else changed. -/
@[simp] theorem State.restore_lanes_resp (s : State) (A : Lanes) (r : Response) :
    (((s.withLanes A).answer r).withLanes s.lanes).answer s.resp = s := rfl

@[simp] theorem State.restore_resp (s : State) (r : Response) : (s.answer r).answer s.resp = s := rfl

/-! ## The state byte space under a write -/

@[simp] theorem State.byteAt_val (s : State) (k : Fin 200) : s.byteAt k.val = some (readByte s.lanes k) := by
  simp [State.byteAt]

/-- An address reads the same in two states if the state byte there does; addresses outside the space read nothing in
either (20_memory.md R31). -/
theorem State.byteAt_congr {s t : State} {a : Nat} (h : ∀ k : Fin 200, k.val = a → readByte t.lanes k = readByte s.lanes k) :
    t.byteAt a = s.byteAt a := by
  by_cases ha : a < 200
  · simp [State.byteAt, ha, h ⟨a, ha⟩ rfl]
  · simp [State.byteAt, ha]

/-- A lane write leaves the bytes of every other lane unchanged (20_memory.md R32). -/
theorem readByte_setLane_ne {A : Lanes} {x y : Fin 5} {v : Word} {k : Fin 200} (h : ¬ (x = byteX k ∧ y = byteY k)) :
    readByte (setLane A x y v) k = readByte A k := by
  rw [readByte, laneAt_setLane_ne h, readByte]

/-- The bytes of a lane are the eight from offset 8(x + 5y) (20_memory.md R33). -/
theorem byte_in_lane_iff {x y : Fin 5} {k : Fin 200} : x = byteX k ∧ y = byteY k ↔
    8 * (x.val + 5 * y.val) ≤ k.val ∧ k.val < 8 * (x.val + 5 * y.val) + 8 := by
  simp only [byteX, byteY, Fin.ext_iff]; omega

theorem byteAt_setLane_ne (s : State) {x y : Fin 5} (v : Word) (r : Response) {a : Nat}
    (h : a < 8 * (x.val + 5 * y.val) ∨ 8 * (x.val + 5 * y.val) + 8 ≤ a) :
    ((s.withLanes (setLane s.lanes x y v)).answer r).byteAt a = s.byteAt a := by
  refine State.byteAt_congr fun k hk => readByte_setLane_ne fun hlane => ?_
  have := byte_in_lane_iff.1 hlane
  omega

theorem byteAt_writeByte_ne (s : State) {k : Fin 200} (d : Byte) (r : Response) {a : Nat} (h : a ≠ k.val) :
    ((s.withLanes (writeByte s.lanes k d)).answer r).byteAt a = s.byteAt a := by
  refine State.byteAt_congr fun l hl => readByte_writeByte_ne fun hkl => ?_
  exact h (hkl ▸ hl.symm)

/-! ## A byte, zero-extended -/

theorem setWidth_byte_shiftRight (b : Byte) : b.setWidth 64 >>> 8 = 0 := by
  apply BitVec.eq_of_getLsbD_eq
  simp

end Sys2Proof.Machine

namespace Sys2Proof.Safety

open Sys2Proof.Machine

/-- Settles O25: a rejection stores nothing, and of the effects only the two codec writes change S, each inside its operand's
bytes. -/
theorem commandMemoryFrame : Obligations.CommandMemoryFrame := by
  intro i s t h a ha
  rcases exec_cases i s with ⟨_, hexec⟩ | ⟨_, r, e, _, hexec⟩ | ⟨_, t', heffect, hexec⟩ <;> rw [hexec] at h <;> cases h
  · exact State.byteAt_congr fun _ _ => rfl
  · cases heffect with
    | laneWr x y p ok _ =>
      obtain ⟨hx, hy⟩ := laneOperand_val ok
      exact byteAt_setLane_ne s _ _ (by rw [hx, hy]; exact ha)
    | byteWr ofs d k ok _ => exact byteAt_writeByte_ne s _ _ (by rw [byteOperand_val ok]; exact ha)
    | _ => exact State.byteAt_congr fun _ _ => rfl

/-- Settles O19: in an idle block the effect of LANE.WR is one lane write. -/
theorem laneWrWrites : Obligations.LaneWrWrites := by
  intro s x y hseen hidle
  refine ⟨_, exec_laneWr_idle hseen hidle x y, by simp, fun x' y' hne => ?_, by simp, by simp⟩
  have hother : ¬ (x = x' ∧ y = y') := fun ⟨hx, hy⟩ => hne (by rw [hx, hy])
  exact laneAt_setLane_ne hother

/-- Settles O20: in an idle block the effect of LANE.RD is its answer. -/
theorem laneRdReads : Obligations.LaneRdReads :=
  fun _ x y hseen hidle => ⟨_, exec_laneRd_idle hseen hidle x y, by simp, by simp⟩

/-- Settles O21: in an idle block the effect of BYTE.WR is one byte write, which no other offset sees. -/
theorem byteWrWrites : Obligations.ByteWrWrites :=
  fun s k d hseen hidle =>
    ⟨_, exec_byteWr_idle hseen hidle k d, by simp, fun _ hne => byteAt_writeByte_ne s d _ hne, by simp, by simp⟩

/-- Settles O22: in an idle block the effect of BYTE.RD is its answer, a byte zero-extended. -/
theorem byteRdReads : Obligations.ByteRdReads :=
  fun s k hseen hidle =>
    ⟨_, _, exec_byteRd_idle hseen hidle k, State.answer_data_response _ _,
      by rw [State.byteAt_val, BitVec.extractLsb'_setWidth_of_le (by decide), BitVec.extractLsb'_eq_self],
      setWidth_byte_shiftRight _, by simp⟩

/-- Settles O28: LANE.WR leaves the block idle with the lane holding din, and byte j of a lane is bits [8j+7:8j] of it. -/
theorem laneWrThenReads : Obligations.LaneWrThenReads := by
  intro s x y j hseen hidle
  have hwr := exec_laneWr_idle hseen hidle x y
  generalize ht : (s.withLanes (setLane s.lanes x y s.din)).answer .silent = t at hwr
  have hlane : laneAt t.lanes x y = s.din := by simp [← ht]
  have hseen' : t.resetSeen = true := by simpa [← ht] using hseen
  have hidle' : t.busy = false := by simpa [← ht] using hidle
  exact ⟨t, _, _, hwr, exec_laneRd_idle hseen' hidle' x y, by simp [hlane],
    exec_byteRd_idle hseen' hidle' (byteOffset x y j), by simp [readByte_byteOffset, hlane]⟩

end Sys2Proof.Safety

/-! PROOFS. The statements about 41_round.md: control does not depend on data, theta, rho, pi, chi and iota lane by lane, the two
tables, and lane complementing. -/

namespace Sys2Proof.Safety

open Sys2Proof.Machine

/-! ## Control without data: what `eraseData` sees of each operation -/

section EraseData

variable (s : State)

@[simp] theorem eraseData_withLanes (A : Lanes) : eraseData (s.withLanes A) = eraseData s := rfl

@[simp] theorem eraseData_withDin (d : Word) : eraseData (s.withDin d) = eraseData s := rfl

@[simp] theorem eraseData_withHost (es : List HostEvent) : eraseData (s.withHost es) = (eraseData s).withHost es := rfl

@[simp] theorem eraseData_answer (r : Response) : eraseData (s.answer r) = (eraseData s).answer (eraseResponse r) := rfl

@[simp] theorem eraseData_startPerm (m : Mode) : eraseData (s.startPerm m) = (eraseData s).startPerm m := rfl

@[simp] theorem eraseData_finishPerm : eraseData s.finishPerm = (eraseData s).finishPerm := rfl

@[simp] theorem eraseData_nextRound : eraseData s.nextRound = (eraseData s).nextRound := rfl

@[simp] theorem eraseData_applyReset : eraseData s.applyReset = (eraseData s).applyReset := rfl

/-- The lanes that come up after a loss of power depend on the loss count alone, which is no data (log entry 10). -/
@[simp] theorem eraseData_applyPowerLoss : eraseData s.applyPowerLoss = eraseData (eraseData s).applyPowerLoss := rfl

/-- A rejection answers with no value (60_exceptions.md R95, R96). -/
@[simp] theorem eraseData_reject (isRead : Bool) (e : ErrCode) :
    eraseData (s.reject isRead e) = (eraseData s).reject isRead e := by
  cases isRead <;> rfl

@[simp] theorem eraseData_busy : (eraseData s).busy = s.busy := rfl

@[simp] theorem eraseData_ridx : (eraseData s).ridx = s.ridx := rfl

@[simp] theorem eraseData_fault : (eraseData s).fault = s.fault := rfl

@[simp] theorem eraseData_resetSeen : (eraseData s).resetSeen = s.resetSeen := rfl

@[simp] theorem eraseData_host : (eraseData s).host = s.host := rfl

@[simp] theorem eraseData_status : (eraseData s).status = s.status := rfl

@[simp] theorem eraseResponse_data (v : Word) : eraseResponse (.data v) = .data 0 := rfl

/-- Which round comes next, and whether it is the last, RIDX decides and S does not (42_sequencer.md R87). -/
theorem eraseData_seqStep :
    eraseData s.seqStep = if (eraseData s).ridx = 23 then (eraseData s).finishPerm else (eraseData s).nextRound := by
  rcases seqStep_cases s with ⟨hlast, hstep⟩ | ⟨hmore, hstep⟩
  · simp [hstep, hlast]
  · simp [hstep, hmore]

end EraseData

/-! ## Two blocks that differ in data only -/

/-- Two blocks that differ in data only (41_round.md R82). -/
abbrev SameControl (s s' : State) : Prop := eraseData s = eraseData s'

/-- The checks common to all commands read two fields; a relation of outcomes holds if it holds of each rejection and of each
effect. -/
theorem agree_runCommand {α : Type} {r : State → State → Prop} {s s' : State} {c : CommandClass} {f g : α → State}
    (operand : Except ErrCode α) (hseen : s.resetSeen = s'.resetSeen) (hbusy : s.busy = s'.busy)
    (hreject : ∀ e, r (s.reject c.isRead e) (s'.reject c.isRead e)) (hperform : ∀ a, r (f a) (g a)) :
    Agree r (runCommand s c operand f) (runCommand s' c operand g) := by
  unfold runCommand
  rw [hseen, hbusy]
  split
  · rfl
  · cases operand with
    | error e => exact hreject e
    | ok a =>
      dsimp only
      split
      · exact hreject _
      · exact hperform a

namespace SameControl

variable {s s' : State} (h : SameControl s s')
include h

theorem busy_eq : s.busy = s'.busy := by simpa using congrArg State.busy h

theorem resetSeen_eq : s.resetSeen = s'.resetSeen := by simpa using congrArg State.resetSeen h

theorem fault_eq : s.fault = s'.fault := by simpa using congrArg State.fault h

theorem host_eq : s.host = s'.host := by simpa using congrArg State.host h

theorem status_eq : s.status = s'.status := by simpa using congrArg State.status h

theorem reject (isRead : Bool) (e : ErrCode) : SameControl (s.reject isRead e) (s'.reject isRead e) := by
  simp [SameControl, h]

theorem withHost (es : List HostEvent) : SameControl (s.withHost es) (s'.withHost es) := by
  simp [SameControl, h]

theorem withDin (d : Word) : SameControl (s.withDin d) (s'.withDin d) := h

/-- A command's effect moves data, or writes control that no data decides. -/
theorem agree_exec (i : Instr) : Agree SameControl (exec i s) (exec i s') := by
  have run {α : Type} (c : CommandClass) (operand : Except ErrCode α) {f g : α → State}
      (hperform : ∀ a, SameControl (f a) (g a)) :
      Agree SameControl (runCommand s c operand f) (runCommand s' c operand g) :=
    agree_runCommand operand h.resetSeen_eq h.busy_eq (h.reject _) hperform
  cases i with
  | laneWr x y => rw [exec_laneWr, exec_laneWr]; exact run _ _ fun _ => by simp [SameControl, h]
  | laneRd x y => rw [exec_laneRd, exec_laneRd]; exact run _ _ fun _ => by simp [SameControl, h]
  | byteWr ofs d => rw [exec_byteWr, exec_byteWr]; exact run _ _ fun _ => by simp [SameControl, h]
  | byteRd ofs => rw [exec_byteRd, exec_byteRd]; exact run _ _ fun _ => by simp [SameControl, h]
  | permFull => rw [exec_permFull, exec_permFull]; exact run _ _ fun _ => by simp [SameControl, h]
  | permHalf => rw [exec_permHalf, exec_permHalf]; exact run _ _ fun _ => by simp [SameControl, h]
  | statusRd => rw [exec_statusRd, exec_statusRd]; exact run _ _ fun _ => by simp [SameControl, h]

theorem agree_rejectWord (w : BitVec 32) (e : ErrCode) : Agree SameControl (rejectWord w e s) (rejectWord w e s') := by
  unfold rejectWord
  rw [h.resetSeen_eq]
  split
  · rfl
  · exact h.reject _ e

theorem agree_issueCommand (c : Command) : Agree SameControl (issueCommand c s) (issueCommand c s') := by
  unfold issueCommand
  cases decode c.word with
  | ok i => exact (h.withDin c.din).agree_exec i
  | error e => exact (h.withDin c.din).agree_rejectWord c.word e

theorem quietSlot : SameControl s.quietSlot s'.quietSlot := by
  unfold State.quietSlot
  rw [h.busy_eq]
  split
  · rw [SameControl, eraseData_seqStep, eraseData_seqStep, h]
  · exact h

theorem agree_hostEvent (e : HostEvent) : Agree SameControl (hostEvent e s) (hostEvent e s') := by
  cases e with
  | issue c => exact h.agree_issueCommand c
  | quiet => exact h.quietSlot
  | reset lost =>
    change eraseData s.applyReset = eraseData s'.applyReset
    rw [eraseData_applyReset, eraseData_applyReset, h]
  | powerLoss =>
    change eraseData s.applyPowerLoss = eraseData s'.applyPowerLoss
    rw [eraseData_applyPowerLoss s, eraseData_applyPowerLoss s', h]

theorem agree_slot : Agree SameControl (slot s) (slot s') := by
  cases hhost : s.host with
  | nil =>
    rw [slot_nil hhost, slot_nil (h.host_eq ▸ hhost)]
    exact h.quietSlot
  | cons e es =>
    rw [slot_cons hhost, slot_cons (h.host_eq ▸ hhost)]
    exact (h.withHost es).agree_hostEvent e

/-- A step keeps the relation, in both views. -/
theorem agree_stepIn {v : View} : Agree SameControl (stepIn v s) (stepIn v s') :=
  Safety.agree_stepIn h.host_eq h.fault_eq h.agree_slot

end SameControl

/-- Settles O56: `SameControl` is kept by every pair of steps, and the status word is control. Across a loss of power this rests
on the model's choice that what comes up depends on the loss count alone (log entry 10). -/
theorem controlIndependentOfData : Obligations.ControlIndependentOfData :=
  fun _ => runSteps_agree (fun _ _ h => SameControl.agree_stepIn h) fun _ _ h => ⟨h, SameControl.status_eq h⟩

end Sys2Proof.Safety

namespace Sys2Proof.Machine

/-! ## Theta -/

@[simp] theorem rol64_zero_amount (v : Word) : rol64 v 0 = v := rfl

theorem rol64_zero {n : Nat} (hn : n < 64) : rol64 0#64 n = 0#64 := by
  apply BitVec.eq_of_getLsbD_eq
  intro b hb
  rw [getLsbD_rol64 _ hn hb, BitVec.getLsbD_zero, BitVec.getLsbD_zero]

/-- A rotation only moves bits, so it is linear over GF(2). -/
theorem rol64_xor (v w : Word) {n : Nat} (hn : n < 64) : rol64 (v ^^^ w) n = rol64 v n ^^^ rol64 w n := by
  apply BitVec.eq_of_getLsbD_eq
  intro b hb
  simp only [getLsbD_rol64 _ hn hb, BitVec.getLsbD_xor]

/-- The exclusive-or of two lane arrays, lane by lane. -/
def xorLanes (A B : Lanes) : Lanes := ofLanes fun x y => laneAt A x y ^^^ laneAt B x y

@[simp] theorem laneAt_xorLanes (A B : Lanes) (x y : Fin 5) : laneAt (xorLanes A B) x y = laneAt A x y ^^^ laneAt B x y :=
  laneAt_ofLanes _ x y

theorem columnParity_xorLanes (A B : Lanes) (x : Fin 5) :
    columnParity (xorLanes A B) x = columnParity A x ^^^ columnParity B x := by
  simp only [columnParity, laneAt_xorLanes]
  ac_rfl

theorem thetaTerm_xorLanes (A B : Lanes) (x : Fin 5) : thetaTerm (xorLanes A B) x = thetaTerm A x ^^^ thetaTerm B x := by
  simp only [thetaTerm, columnParity_xorLanes, rol64_xor _ _ (show 1 < 64 by decide)]
  ac_rfl

theorem thetaStep_xorLanes (A B : Lanes) : thetaStep (xorLanes A B) = xorLanes (thetaStep A) (thetaStep B) := by
  apply lanes_ext
  intro x y
  simp only [laneAt_thetaStep, laneAt_xorLanes, thetaTerm_xorLanes]
  ac_rfl

/-- Where both parities are 0 theta adds nothing to a column (41_round.md R72). -/
theorem thetaTerm_eq_zero {A : Lanes} (h : ∀ x, columnParity A x = 0) (x : Fin 5) : thetaTerm A x = 0 := by
  simp [thetaTerm, h, rol64_zero (show 1 < 64 by decide)]

/-! ## Rho -/

theorem rot_lt (x y : Fin 5) : rot x y < 64 := by
  revert x y; decide

/-! ## Chi -/

/-- Bits z of the five lanes of row y: the slice that chi acts on. -/
def rowSlice (A : Lanes) (y : Fin 5) (z : Nat) : Fin 5 → Bool := fun x => (laneAt A x y).getLsbD z

/-- Chi on five bits. -/
def chiRow (r : Fin 5 → Bool) : Fin 5 → Bool := fun x => r x ^^ (!r (x + 1) && r (x + 2))

/-- Chi acts on every slice of every row by itself (41_round.md R75). -/
theorem rowSlice_chiStep (A : Lanes) (y : Fin 5) {z : Nat} (hz : z < 64) :
    rowSlice (chiStep A) y z = chiRow (rowSlice A y z) := by
  funext x
  simp [rowSlice, chiRow, laneAt_chiStep, hz]

/-- Two arrays with the same slices are the same array. -/
theorem lanes_ext_rowSlice {A B : Lanes} (h : ∀ (y : Fin 5) (z : Nat), z < 64 → rowSlice A y z = rowSlice B y z) : A = B := by
  apply lanes_ext
  intro x y
  apply BitVec.eq_of_getLsbD_eq
  intro z hz
  exact congrFun (h y z hz) x

/-- Chi on five bits has order four. -/
theorem chiRow_fourth (r : Fin 5 → Bool) : chiRow (chiRow (chiRow (chiRow r))) = r := by
  revert r; decide

/-- Chi has order four on arrays, since it has on every slice. -/
theorem chiStep_fourth (A : Lanes) : chiStep (chiStep (chiStep (chiStep A))) = A := by
  apply lanes_ext_rowSlice
  intro y z hz
  simp only [rowSlice_chiStep _ _ hz, chiRow_fourth]

/-- Three further applications of chi undo one. -/
theorem chiStep_bijective : Function.Bijective chiStep :=
  Function.bijective_iff_has_inverse.2 ⟨fun A => chiStep (chiStep (chiStep A)), chiStep_fourth, chiStep_fourth⟩

/-! ## Iota -/

/-- Two constants put into one array differ from each other only where iota puts them. -/
theorem laneAt_iotaStep_xor (A : Lanes) (i j : Fin 24) (x y : Fin 5) :
    laneAt (iotaStep A i) x y ^^^ laneAt (iotaStep A j) x y = if x = 0 ∧ y = 0 then rc i ^^^ rc j else 0 := by
  simp only [laneAt_iotaStep, eq_comm (a := (0 : Fin 5))]
  split
  · calc laneAt A 0 0 ^^^ rc i ^^^ (laneAt A 0 0 ^^^ rc j)
        = (laneAt A 0 0 ^^^ laneAt A 0 0) ^^^ (rc i ^^^ rc j) := by ac_rfl
      _ = rc i ^^^ rc j := by simp
  · simp

/-- The steps before iota keep the zero array (41_round.md R79). -/
theorem beforeIota_zero :
    chiStep (piStep (rhoStep (thetaStep State.reset.lanes))) = State.reset.lanes := by
  decide

/-! ## Lane complementing -/

theorem heldAs_xor (f : Bool) (v w : Word) : heldAs f v ^^^ w = heldAs f (v ^^^ w) := by
  simpa [heldAs] using heldAs_xor_heldAs f false v w

/-- The adapted chi is the plain one on the plain lanes (41_round.md R81). -/
theorem adaptedChi_complementLanes (held made : LaneSet) (A : Lanes) :
    adaptedChi held made (complementLanes held A) = complementLanes made (chiStep A) := by
  apply lanes_ext
  intro x y
  simp only [adaptedChi, laneAt_ofLanes, laneAt_complementLanes, adaptedTerm_heldAs, laneAt_chiStep, heldAs_xor, heldAs_heldAs]
  congr 1
  cases held x y <;> simp

theorem columnParity_complementLanes (set : LaneSet) (A : Lanes) (x : Fin 5) :
    columnParity (complementLanes set A) x = heldAs (columnFlips set x) (columnParity A x) := by
  simp only [columnParity, laneAt_complementLanes, heldAs_xor_heldAs, columnFlips]

theorem thetaTerm_complementLanes (set : LaneSet) (A : Lanes) (x : Fin 5) :
    thetaTerm (complementLanes set A) x = heldAs (columnFlips set (x - 1) ^^ columnFlips set (x + 1)) (thetaTerm A x) := by
  simp only [thetaTerm, columnParity_complementLanes, rol64_heldAs _ _ 1 (by decide), heldAs_xor_heldAs]

theorem thetaStep_complementLanes (set : LaneSet) (A : Lanes) :
    thetaStep (complementLanes set A) = complementLanes (afterTheta set) (thetaStep A) := by
  apply lanes_ext
  intro x y
  simp only [laneAt_thetaStep, laneAt_complementLanes, thetaTerm_complementLanes, heldAs_xor_heldAs, afterTheta]

theorem rhoStep_complementLanes (set : LaneSet) (A : Lanes) :
    rhoStep (complementLanes set A) = complementLanes set (rhoStep A) := by
  apply lanes_ext
  intro x y
  simp only [laneAt_rhoStep, laneAt_complementLanes, rol64_heldAs _ _ _ (rot_lt x y)]

theorem piStep_complementLanes (set : LaneSet) (A : Lanes) :
    piStep (complementLanes set A) = complementLanes (fun x y => set (x + 3 * y) x) (piStep A) := by
  apply lanes_ext
  intro x y
  simp only [laneAt_piStep, laneAt_complementLanes]

theorem iotaStep_complementLanes (set : LaneSet) (A : Lanes) (i : Fin 24) :
    iotaStep (complementLanes set A) i = complementLanes set (iotaStep A i) := by
  apply lanes_ext
  intro x y
  simp only [laneAt_iotaStep, laneAt_complementLanes]
  split
  · next h => obtain ⟨rfl, rfl⟩ := h; rw [heldAs_xor]
  · rfl

/-- A round on the complemented lanes is the plain round, complemented (41_round.md R81). -/
theorem adaptedRound_complementLanes (set : LaneSet) (A : Lanes) (i : Fin 24) :
    adaptedRound set (complementLanes set A) i = complementLanes set (keccakRound A i) := by
  have hbefore : piStep (rhoStep (thetaStep (complementLanes set A))) =
      complementLanes (beforeChi set) (piStep (rhoStep (thetaStep A))) := by
    rw [thetaStep_complementLanes, rhoStep_complementLanes, piStep_complementLanes]; rfl
  rw [adaptedRound, hbefore, adaptedChi_complementLanes, iotaStep_complementLanes, keccakRound]

/-- Complementing a set twice changes nothing. -/
theorem complementLanes_complementLanes (set : LaneSet) (A : Lanes) : complementLanes set (complementLanes set A) = A := by
  apply lanes_ext
  intro x y
  rw [laneAt_complementLanes, laneAt_complementLanes, heldAs_heldAs, Bool.xor_self]; rfl

/-- Any rounds on the complemented lanes are the plain rounds, complemented: by induction on the list of rounds. -/
theorem foldl_adaptedRound_complementLanes (set : LaneSet) (is : List (Fin 24)) (A : Lanes) :
    is.foldl (adaptedRound set) (complementLanes set A) = complementLanes set (runRounds A is) := by
  induction is generalizing A with
  | nil => rfl
  | cons i is ih => rw [List.foldl_cons, adaptedRound_complementLanes, ih]; rfl

theorem complementedPerm_eq_permFrom (set : LaneSet) (A : Lanes) (f : Nat) : complementedPerm set A f = permFrom A f := by
  rw [complementedPerm, foldl_adaptedRound_complementLanes, complementLanes_complementLanes, permFrom]

end Sys2Proof.Machine

namespace Sys2Proof.Safety

open Sys2Proof.Machine

/-- Settles O33: theta adds two parities to each lane, one of them rotated; both are linear, and 0 for arrays with parity 0. -/
theorem thetaLaws : Obligations.ThetaLaws := by
  refine ⟨fun A x y z hz => ?_, thetaStep_xorLanes, fun A h => ?_⟩
  · simp [laneAt_thetaStep, thetaTerm, columnParity, getLsbD_rol64 _ (show 1 < 64 by decide) hz]
  · apply lanes_ext
    intro x y
    simp [laneAt_thetaStep, thetaTerm_eq_zero h]

/-- Settles O35: chi's formula bit by bit, and its inverse, the third power of chi itself. -/
theorem chiBijective : Obligations.ChiBijective :=
  ⟨fun A x y _ hz => congrFun (rowSlice_chiStep A y hz) x, chiStep_bijective⟩

/-- Settles O36: two rounds of one array are iota with two constants of one array. -/
theorem roundIndexOnlyInIota : Obligations.RoundIndexOnlyInIota := by
  refine ⟨fun A i x y => ?_, fun A i j x y => laneAt_iotaStep_xor _ i j x y⟩
  rw [laneAt_iotaStep]
  by_cases h : x = 0 ∧ y = 0
  · obtain ⟨rfl, rfl⟩ := h; simp
  · simp [h, eq_comm (a := (0 : Fin 5))]

/-- Settles O41: complementing passes through every step of the round, and its second application undoes the first. -/
theorem complementingIsInvisible : Obligations.ComplementingIsInvisible :=
  ⟨adaptedChi_complementLanes, complementedPerm_eq_permFrom⟩

/-- Settles O59: rho is a ROL64 of every lane, by less than the lane's width, and by 0 for lane (0,0). -/
theorem rhoRotatesLanes : Obligations.RhoRotatesLanes := by
  refine ⟨fun A x y z hz => ?_, rot_lt, fun A => ?_⟩
  · rw [laneAt_rhoStep, getLsbD_rol64 _ (rot_lt x y) hz]
  · rw [laneAt_rhoStep, show rot 0 0 = 0 by decide, rol64_zero_amount]

/-- Settles O34: the source that pi's definition gives the destination (y, 2x + 3y) is (x, y). -/
theorem piMovesLanes : Obligations.PiMovesLanes := by
  intro A x y
  have hsource : y + 3 * (2 * x + 3 * y) = x := by revert x y; decide
  rw [laneAt_piStep, hsource]

/-- Settles O37: the steps before iota keep the zero array, and iota adds its constant to a lane that is 0. -/
theorem roundOfZero : Obligations.RoundOfZero := by
  intro i
  have hlane : laneAt State.reset.lanes 0 0 = 0 := by decide
  rw [keccakRound, beforeIota_zero, iotaStep, hlane]; simp

/-- Settles O38, by running the LFSR for the 24 constants. -/
theorem rcFromLfsr : Obligations.RcFromLfsr := by
  unfold Obligations.RcFromLfsr
  decide

/-- Settles O39, by walking the 24 times. -/
theorem rotFromWalk : Obligations.RotFromWalk := by
  unfold Obligations.RotFromWalk
  decide

end Sys2Proof.Safety

/-! PROOFS. The statements about 42_sequencer.md: the two PERM commands and STATUS.RD, a sequencer's step, a running permutation
under every interleaving, and Full and Half as functions: their composition and that they are bijections. -/

namespace Sys2Proof.Machine

/-! ## The PERM commands and STATUS.RD -/

section

variable {s t : State}

theorem statusWord_reserved (b d l e : Bool) (c : BitVec 3) : statusWord b d l e c &&& 0xFFFFFFFFFFFFF0F8 = 0 := by
  revert b d l e c; decide

/-- An accepted PERM in an idle block starts its mode's permutation (42_sequencer.md R85, R86). -/
theorem exec_permCommand_idle (hseen : s.resetSeen = true) (hidle : s.busy = false) (m : Mode) :
    exec (Safety.permCommand m) s = .next ((s.startPerm m).answer .silent) := by
  cases m with
  | full => exact (exec_permFull s).trans (runCommand_perform hseen (.inl hidle))
  | half => exact (exec_permHalf s).trans (runCommand_perform hseen (.inl hidle))

/-- STATUS.RD is accepted in every block that has been reset, busy or idle (42_sequencer.md R90). -/
theorem exec_statusRd_reset (hseen : s.resetSeen = true) : exec .statusRd s = .next (s.answer (.data s.status)) :=
  (exec_statusRd s).trans (runCommand_perform hseen (.inr rfl))

/-- In a busy block STATUS.RD is the one command that takes effect (42_sequencer.md R90, 70_reset_and_hazards.md R113). -/
theorem Effect.of_busy {i : Instr} (h : Effect s i t) (hbusy : s.busy = true) : t = s.answer (.data s.status) := by
  cases h with
  | statusRd => rfl
  | _ => rename_i idle; simp [idle] at hbusy

/-! ## The sequencer's step in a slot -/

@[simp] theorem State.seqStep_din (s : State) : s.seqStep.din = s.din := by
  rcases seqStep_cases s with ⟨_, h⟩ | ⟨_, h⟩ <;> simp [h]

@[simp] theorem State.seqStep_resp (s : State) : s.seqStep.resp = s.resp := by
  rcases seqStep_cases s with ⟨_, h⟩ | ⟨_, h⟩ <;> simp [h]

@[simp] theorem State.seqStep_losses (s : State) : s.seqStep.losses = s.losses := by
  rcases seqStep_cases s with ⟨_, h⟩ | ⟨_, h⟩ <;> simp [h]

theorem State.seqStep_ridx_last (h : s.ridx = 23) : s.seqStep.ridx = s.ridx := by
  rcases seqStep_cases s with ⟨_, hstep⟩ | ⟨hmore, _⟩
  · simp [hstep]
  · exact absurd h hmore

/-- A busy block gives every slot that the host leaves free to the sequencer (42_sequencer.md R87). -/
theorem stepIn_quietNext {v : View} {es : List HostEvent} (hgo : v = .hardware ∨ s.fault = none) (hbusy : s.busy = true)
    (hquiet : QuietNext s es) : stepIn v s = .next (s.withHost es).seqStep := by
  rcases hquiet with ⟨hhost, rfl⟩ | hhost
  · have hsame : s.withHost [] = s := by rw [← hhost]; rfl
    rw [stepIn_seqStep hgo hbusy hhost, hsame]
  · rw [stepIn_going hgo, slot_cons hhost]
    simp [hostEvent, State.quietSlot, hbusy]

end

/-! ## The permutation as a sequence of rounds -/

theorem runRounds_append (A : Lanes) (is js : List (Fin 24)) : runRounds A (is ++ js) = runRounds (runRounds A is) js :=
  List.foldl_append

/-- Perm from round f is its first n rounds and then Perm from round f + n (42_sequencer.md R83, R91). -/
theorem permFrom_runRounds (A : Lanes) (f n : Nat) :
    permFrom (runRounds A ((roundIndices.drop f).take n)) (f + n) = permFrom A f := by
  rw [permFrom, ← runRounds_append, ← List.drop_drop, List.take_append_drop, permFrom]

/-! ## Theta is injective

A parity tells what theta adds to each column, so theta is injective if the parities before it follow from those after it. On
parities theta is the operator 1 + X + Y that `columnMix` writes out, X a move by one column and Y a move back with a rotation by
one bit. Over GF(2) squaring acts on each summand, so its 64th power is 1 + X^64 + Y^64, in which no rotation is left. -/

/-- Each column with the column `a` to the left and the image under `r` of the column `a` to the right added: for 1 and a
rotation by one bit, what theta makes of the column parities (41_round.md R72). -/
def columnMix (a : Fin 5) (r : Word → Word) (p : Fin 5 → Word) : Fin 5 → Word :=
  fun x => p x ^^^ p (x - a) ^^^ r (p (x + a))

section

variable {r : Word → Word} (hr : ∀ v w, r (v ^^^ w) = r v ^^^ r w)
include hr

theorem iterate_xor (n : Nat) (v w : Word) : r^[n] (v ^^^ w) = r^[n] v ^^^ r^[n] w := by
  induction n generalizing v w with
  | zero => rfl
  | succ n ih => simp only [Function.iterate_succ_apply, hr, ih]

/-- Squaring acts on each summand: the mixed terms come twice and cancel. -/
theorem columnMix_comp_self (a : Fin 5) : columnMix a r ∘ columnMix a r = columnMix (a + a) (r ∘ r) := by
  funext p x
  simp only [Function.comp_apply, columnMix, hr, sub_sub, add_assoc, sub_add_cancel, add_sub_cancel_right]
  generalize r (r (p (x + (a + a)))) = u
  calc p x ^^^ p (x - a) ^^^ r (p (x + a)) ^^^ (p (x - a) ^^^ p (x - (a + a)) ^^^ r (p x)) ^^^ (r (p (x + a)) ^^^ r (p x) ^^^ u)
      = p x ^^^ p (x - (a + a)) ^^^ u ^^^ (p (x - a) ^^^ p (x - a)) ^^^ (r (p (x + a)) ^^^ r (p (x + a))) ^^^
          (r (p x) ^^^ r (p x)) := by ac_rfl
    _ = p x ^^^ p (x - (a + a)) ^^^ u := by simp

theorem iterate_columnMix_two_pow (a : Fin 5) (k : Nat) :
    (columnMix a r)^[2 ^ k] = columnMix ((fun b => b + b)^[k] a) r^[2 ^ k] := by
  induction k with
  | zero => rfl
  | succ k ih =>
    rw [Function.iterate_succ_apply', pow_succ, mul_two, Function.iterate_add, Function.iterate_add, ih,
      columnMix_comp_self (iterate_xor hr _)]

end

/-- Without a rotation, mixing by `a` undoes mixing by `2a`: there are five columns only. -/
theorem columnMix_id_leftInverse (a : Fin 5) : Function.LeftInverse (columnMix a id) (columnMix (a + a) id) := by
  intro p
  funext x
  have hback : x - a - (a + a) = x + (a + a) ∧ x - a + (a + a) = x + a := by revert x a; decide
  have hforth : x + a - (a + a) = x - a ∧ x + a + (a + a) = x - (a + a) := by revert x a; decide
  simp only [columnMix, id, hback, hforth]
  calc p x ^^^ p (x - (a + a)) ^^^ p (x + (a + a)) ^^^ (p (x - a) ^^^ p (x + (a + a)) ^^^ p (x + a)) ^^^
        (p (x + a) ^^^ p (x - a) ^^^ p (x - (a + a)))
      = p x ^^^ (p (x - (a + a)) ^^^ p (x - (a + a))) ^^^ (p (x + (a + a)) ^^^ p (x + (a + a))) ^^^
          (p (x - a) ^^^ p (x - a)) ^^^ (p (x + a) ^^^ p (x + a)) := by ac_rfl
    _ = p x := by simp

/-- ROL64 by one bit, the rotation in theta (41_round.md R72). -/
def rolOne (v : Word) : Word := rol64 v 1

theorem getLsbD_iterate_rolOne (v : Word) (n : Nat) {z : Nat} (hz : z < 64) :
    (rolOne^[n] v).getLsbD z = v.getLsbD ((z + 63 * n) % 64) := by
  induction n generalizing z with
  | zero => simp [Nat.mod_eq_of_lt hz]
  | succ n ih =>
    rw [Function.iterate_succ_apply', rolOne, getLsbD_rol64 _ (by omega) hz, ih (Nat.mod_lt _ (by omega))]
    congr 1; omega

/-- Sixty-four rotations by one bit bring every bit back. -/
theorem iterate_rolOne_64 : rolOne^[64] = id := by
  funext v
  apply BitVec.eq_of_getLsbD_eq
  intro z hz
  rw [getLsbD_iterate_rolOne v 64 hz, id, show (z + 63 * 64) % 64 = z by omega]

/-- The 64th power of theta's operator on parities has no rotation in it, and mixing by 2 undoes that power. -/
theorem columnMix_rolOne_injective : Function.Injective (columnMix 1 rolOne) := by
  have hlinear (v w : Word) : rolOne (v ^^^ w) = rolOne v ^^^ rolOne w := rol64_xor v w (by decide)
  have hpower : (columnMix 1 rolOne)^[63 + 1] = columnMix (2 + 2) id := by
    rw [← iterate_rolOne_64]
    exact iterate_columnMix_two_pow hlinear 1 6
  have hinj : Function.Injective (columnMix 1 rolOne)^[63 + 1] := by
    rw [hpower]
    exact (columnMix_id_leftInverse 2).injective
  rw [Function.iterate_succ] at hinj
  exact hinj.of_comp

/-- Theta adds one term to the five lanes of a column, and so once to its parity (41_round.md R72). -/
theorem columnParity_thetaStep (A : Lanes) : columnParity (thetaStep A) = columnMix 1 rolOne (columnParity A) := by
  funext x
  have hterm : columnMix 1 rolOne (columnParity A) x = columnParity A x ^^^ thetaTerm A x := BitVec.xor_assoc _ _ _
  rw [hterm]
  simp only [columnParity, laneAt_thetaStep]
  generalize thetaTerm A x = d
  calc (laneAt A x 0 ^^^ d) ^^^ (laneAt A x 1 ^^^ d) ^^^ (laneAt A x 2 ^^^ d) ^^^ (laneAt A x 3 ^^^ d) ^^^ (laneAt A x 4 ^^^ d)
      = laneAt A x 0 ^^^ laneAt A x 1 ^^^ laneAt A x 2 ^^^ laneAt A x 3 ^^^ laneAt A x 4 ^^^ d ^^^ (d ^^^ d) ^^^ (d ^^^ d) := by
        ac_rfl
    _ = laneAt A x 0 ^^^ laneAt A x 1 ^^^ laneAt A x 2 ^^^ laneAt A x 3 ^^^ laneAt A x 4 ^^^ d := by simp

theorem thetaStep_injective : Function.Injective thetaStep := by
  intro A B h
  have hparity : columnParity A = columnParity B :=
    columnMix_rolOne_injective (by rw [← columnParity_thetaStep, ← columnParity_thetaStep, h])
  apply lanes_ext
  intro x y
  have hterm : thetaTerm A x = thetaTerm B x := by simp only [thetaTerm, hparity]
  have hlane : laneAt (thetaStep A) x y = laneAt (thetaStep B) x y := by rw [h]
  rw [laneAt_thetaStep, laneAt_thetaStep, hterm] at hlane
  exact (BitVec.xor_left_inj _).1 hlane

/-! ## The other steps and the permutation as bijections -/

theorem rol64_injective {n : Nat} (hn : n < 64) : Function.Injective fun v => rol64 v n := by
  intro v w h
  apply BitVec.eq_of_getLsbD_eq
  intro z hz
  have hplace : ((z + n) % 64 + 64 - n) % 64 = z := by omega
  have hbit := congrArg (fun u : Word => u.getLsbD ((z + n) % 64)) h
  simpa only [getLsbD_rol64 _ hn (Nat.mod_lt _ (show 64 > 0 by decide)), hplace] using hbit

theorem rhoStep_injective : Function.Injective rhoStep := by
  intro A B h
  apply lanes_ext
  intro x y
  apply rol64_injective (rot_lt x y)
  simpa only [laneAt_rhoStep] using congrArg (laneAt · x y) h

theorem piStep_injective : Function.Injective piStep := by
  intro A B h
  apply lanes_ext
  intro x y
  rw [← Safety.piMovesLanes A x y, h, Safety.piMovesLanes B x y]

/-- Iota undoes itself (41_round.md R76). -/
theorem iotaStep_involutive (i : Fin 24) : Function.Involutive fun A => iotaStep A i := by
  intro A
  apply lanes_ext
  intro x y
  simp only [laneAt_iotaStep]
  split
  · next h => obtain ⟨rfl, rfl⟩ := h; simp
  · rfl

theorem keccakRound_injective (i : Fin 24) : Function.Injective fun A => keccakRound A i :=
  (iotaStep_involutive i).injective.comp <| chiStep_bijective.injective.comp <| piStep_injective.comp <|
    rhoStep_injective.comp thetaStep_injective

theorem runRounds_injective (is : List (Fin 24)) : Function.Injective fun A => runRounds A is := by
  induction is with
  | nil => exact Function.injective_id
  | cons i is ih => exact ih.comp (keccakRound_injective i)

/-- There are finitely many contents of S, 2^1600 of them. -/
theorem finite_lanes : Finite Lanes :=
  Finite.of_injective laneAt fun _ _ h => lanes_ext fun x y => congrFun (congrFun h x) y

theorem permFrom_bijective (f : Nat) : Function.Bijective fun A => permFrom A f :=
  have := finite_lanes
  Finite.injective_iff_bijective.1 (runRounds_injective _)

end Sys2Proof.Machine

namespace Sys2Proof.Safety

open Sys2Proof.Machine

/-! ## A running permutation and the host's events -/

theorem rejection_statusRd {s : State} {c : Command} (h : c.word = encode .statusRd) : rejection s c = none := by
  simp [rejection, decode_of_eq_encode rfl h]

/-- The host's events that the statements about a running permutation allow: commands only, and in the model's view no command
that a busy block rejects (60_exceptions.md R96). -/
structure Allowed (v : View) (es : List HostEvent) : Prop where
  commands : onlyCommands es = true
  polls : v = .model → onlyPolls es = true

theorem onlyCommands_append (es es' : List HostEvent) :
    onlyCommands (es ++ es') = (onlyCommands es && onlyCommands es') :=
  List.all_append

theorem onlyPolls_append (es es' : List HostEvent) : onlyPolls (es ++ es') = (onlyPolls es && onlyPolls es') :=
  List.all_append

theorem quietCount_append (es es' : List HostEvent) : quietCount (es ++ es') = quietCount es + quietCount es' :=
  List.countP_append

theorem Allowed.of_append {v : View} {es es' : List HostEvent} (h : Allowed v (es ++ es')) : Allowed v es ∧ Allowed v es' := by
  obtain ⟨hcommands, hpolls⟩ := h
  simp only [onlyCommands_append, onlyPolls_append, Bool.and_eq_true] at hcommands hpolls
  exact ⟨⟨hcommands.1, fun hv => (hpolls hv).1⟩, ⟨hcommands.2, fun hv => (hpolls hv).2⟩⟩

/-- A busy block that has been reset and whose run has not stopped. -/
structure Running (v : View) (s : State) : Prop where
  going : Going v s
  seen : s.resetSeen = true
  busy : s.busy = true

/-- What the events `es` make of a running permutation before its last round, the host having come to `rest`: each quiet slot
is the next round, and a command leaves the permutation alone (42_sequencer.md R88, R92). -/
structure RanOver (s t : State) (es rest : List HostEvent) : Prop where
  seen : t.resetSeen = s.resetSeen
  busy : t.busy = s.busy
  done : t.done = s.done
  lastMode : t.lastMode = s.lastMode
  mode : t.mode = s.mode
  ridx : t.ridx.val = s.ridx.val + quietCount es
  lanes : t.lanes = runRounds s.lanes ((roundIndices.drop s.ridx.val).take (quietCount es))
  host : t.host = rest
  fault : onlyPolls es = true → t.fault = s.fault

theorem RanOver.trans {s t u : State} {es es' rest rest' : List HostEvent} (h : RanOver s t es rest)
    (h' : RanOver t u es' rest') : RanOver s u (es ++ es') rest' where
  seen := h'.seen.trans h.seen
  busy := h'.busy.trans h.busy
  done := h'.done.trans h.done
  lastMode := h'.lastMode.trans h.lastMode
  mode := h'.mode.trans h.mode
  ridx := by rw [h'.ridx, h.ridx, quietCount_append, Nat.add_assoc]
  lanes := by rw [h'.lanes, h.lanes, h.ridx, quietCount_append, List.take_add, runRounds_append, List.drop_drop]
  host := h'.host
  fault := fun hpolls => by
    rw [onlyPolls_append, Bool.and_eq_true] at hpolls
    exact (h'.fault hpolls.2).trans (h.fault hpolls.1)

theorem Running.of_ranOver {v : View} {s t : State} {es rest : List HostEvent} (hs : Running v s) (hes : Allowed v es)
    (h : RanOver s t es rest) : Running v t where
  going := by
    cases v with
    | hardware => exact .inl rfl
    | model => exact hs.going.imp_right (h.fault (hes.polls rfl)).trans
  seen := h.seen.trans hs.seen
  busy := h.busy.trans hs.busy

/-- A command issued to a busy block is rejected or is STATUS.RD, and either way leaves the permutation alone; a STATUS.RD is
not rejected. -/
theorem issueCommand_ranOver {s : State} {c : Command} {es : List HostEvent} (hseen : s.resetSeen = true)
    (hbusy : s.busy = true) : ∃ t, issueCommand c (s.withHost es) = .next t ∧ RanOver s t [.issue c] es := by
  rcases issueCommand_cases c (s.withHost es) with ⟨hunseen, _⟩ | ⟨_, r, e, hcause, h⟩ | ⟨_, i, t, _, heffect, h⟩
  · simp [hseen] at hunseen
  · refine ⟨_, h, rfl, rfl, rfl, rfl, rfl, rfl, rfl, rfl, fun hpolls => ?_⟩
    have hword : c.word = encode .statusRd := by simpa [onlyPolls] using hpolls
    cases (rejection_of_portCause hcause).symm.trans (rejection_statusRd hword)
  · obtain rfl := heffect.of_busy hbusy
    exact ⟨_, h, rfl, rfl, rfl, rfl, rfl, rfl, rfl, rfl, fun _ => rfl⟩

/-- A quiet slot before round 23 is the next round. -/
theorem seqStep_ranOver {s : State} {es : List HostEvent} (hmore : s.ridx.val < 23) :
    RanOver s (s.withHost es).seqStep [.quiet] es :=
  have hnotLast : s.ridx ≠ 23 := Fin.ne_of_lt hmore
  { seen := by simp
    busy := by simp [hnotLast]
    done := by simp [hnotLast]
    lastMode := by simp
    mode := by simp
    ridx := State.seqStep_ridx_val (s := s.withHost es) hmore
    lanes := by rw [roundIndices_drop]; simp [quietCount, runRounds]
    host := by simp
    fault := by simp }

theorem Running.stepIn_ranOver {v : View} {s : State} {e : HostEvent} {es : List HostEvent} (hs : Running v s)
    (hhost : s.host = e :: es) (he : Allowed v [e]) (hleft : s.ridx.val + quietCount [e] < 24) :
    ∃ t, stepIn v s = .next t ∧ RanOver s t [e] es := by
  cases e with
  | issue c => rw [stepIn_issue hs.going hhost]; exact issueCommand_ranOver hs.seen hs.busy
  | quiet => exact ⟨_, stepIn_quietNext hs.going hs.busy (.inr hhost), seqStep_ranOver (Nat.lt_of_succ_lt_succ hleft)⟩
  | reset lost => cases he.commands
  | powerLoss => cases he.commands

/-- A running permutation runs on over any allowed events with fewer quiet slots than rounds are left: by induction on the
events. -/
theorem Running.runSteps_ranOver {v : View} {es rest : List HostEvent} {s : State} (hs : Running v s)
    (hhost : s.host = es ++ rest) (hes : Allowed v es) (hleft : s.ridx.val + quietCount es < 24) :
    ∃ t, runSteps v es.length s = .next t ∧ RanOver s t es rest := by
  induction es generalizing s with
  | nil => exact ⟨s, rfl, rfl, rfl, rfl, rfl, rfl, rfl, rfl, hhost, fun _ => rfl⟩
  | cons e es ih =>
    obtain ⟨he, hes'⟩ := Allowed.of_append (es := [e]) hes
    have hcount : quietCount (e :: es) = quietCount [e] + quietCount es := quietCount_append [e] es
    obtain ⟨s', hstep, hran⟩ := hs.stepIn_ranOver hhost he (by omega)
    obtain ⟨t, hrun, hran'⟩ := ih (hs.of_ranOver he hran) hran.host hes' (by rw [hran.ridx]; omega)
    exact ⟨t, (runSteps_step hstep).trans hrun, hran.trans hran'⟩

/-! ## A whole permutation -/

/-- Events that bring a running permutation to round 23, and a quiet slot after them: the permutation is complete, and S has
had every round that was left (42_sequencer.md R88, R89). -/
theorem Running.runSteps_complete {v : View} {es rest : List HostEvent} {s : State} (hs : Running v s)
    (hhost : s.host = es ++ .quiet :: rest) (hes : Allowed v es) (hleft : s.ridx.val + quietCount es = 23) :
    ∃ t, runSteps v (es.length + 1) s = .next t ∧ t.busy = false ∧ t.done = true ∧ t.lastMode = s.lastMode ∧
      t.lanes = permFrom s.lanes s.ridx.val ∧ t.host = rest ∧ (onlyPolls es = true → t.fault = s.fault) := by
  obtain ⟨u, hrun, hran⟩ := hs.runSteps_ranOver hhost hes (by omega)
  have hu : Running v u := hs.of_ranOver hes hran
  have hlast : u.ridx = 23 := Fin.ext (hran.ridx.trans hleft)
  have hfinish : stepIn v u = .next (u.withHost rest).seqStep := stepIn_quietNext hu.going hu.busy (.inr hran.host)
  have hlanes : keccakRound u.lanes u.ridx = permFrom s.lanes s.ridx.val := by
    rw [← permFrom_runRounds s.lanes s.ridx.val (quietCount es), ← hran.lanes, ← hran.ridx, permFrom_round, hlast]; rfl
  refine ⟨(u.withHost rest).seqStep, ?_, by simp [hlast], by simp [hlast], by simpa using hran.lastMode, by simpa using hlanes,
    by simp, by simpa using hran.fault⟩
  rw [runSteps_add hrun, runSteps_step hfinish, runSteps_zero]

/-- An accepted PERM leaves the block running, at its mode's first round. -/
theorem Ready.stepIn_permCommand {v : View} {m : Mode} {s : State} {d : Word} {es : List HostEvent} (hs : Ready v s)
    (hhost : s.host = .issue ⟨encode (permCommand m), d⟩ :: es) :
    stepIn v s = .next ((((s.withHost es).withDin d).startPerm m).answer .silent) := by
  have hwf : (permCommand m).wellFormed = true := by cases m <;> rfl
  rw [stepIn_issue hs.going hhost, issueCommand_of_decode_ok (decode_of_eq_encode hwf rfl)]
  exact exec_permCommand_idle (s := (s.withHost es).withDin d) hs.seen hs.idle m

theorem Ready.running_startPerm {v : View} {s : State} (hs : Ready v s) (m : Mode) (d : Word) (es : List HostEvent) :
    Running v ((((s.withHost es).withDin d).startPerm m).answer .silent) :=
  ⟨hs.going, hs.seen, rfl⟩

theorem firstRound_add_roundCount (m : Mode) : (firstRound m).val + roundCount m = 24 := by
  cases m <;> rfl

/-- A mode's permutation is Perm from its first round (42_sequencer.md R84). -/
theorem modePerm_eq_permFrom (m : Mode) (A : Lanes) : modePerm m A = permFrom A (firstRound m).val := by
  cases m <;> rfl

/-! ## The obligations -/

/-- Settles O42: every step of a round is injective, so the rounds are, and the states are finitely many. -/
theorem permutationsBijective : Obligations.PermutationsBijective :=
  ⟨permFrom_bijective 0, permFrom_bijective 12⟩

/-- Settles O44: a running permutation runs on over the host's events, and the run has not stopped. -/
theorem interleavingProgress : Obligations.InterleavingProgress := by
  intro v es rest s hgo hseen hbusy hhost hcommands hpolls hleft
  obtain ⟨t, hrun, hran⟩ := Running.runSteps_ranOver ⟨hgo, hseen, hbusy⟩ hhost ⟨hcommands, hpolls⟩ hleft
  exact ⟨t, hrun, hran.busy.trans hbusy, hran.ridx, hran.lanes, hran.done, hran.lastMode, hran.mode, hran.seen.trans hseen,
    hran.host, hran.fault⟩

/-- Settles O45: PERM leaves the block running at its mode's first round, and the events bring it to round 23. -/
theorem atomicEquivalence : Obligations.AtomicEquivalence := by
  intro v m s d es rest hgo hseen hidle hhost hcommands hpolls hcount
  have hs : Ready v s := ⟨hgo, hseen, hidle⟩
  have hes : Allowed v es := ⟨hcommands, hpolls⟩
  have hleft : (firstRound m).val + quietCount es = 23 := by have := firstRound_add_roundCount m; omega
  obtain ⟨t, hrun, hbusy, hdone, hlast, hlanes, hrest, hfault⟩ := (hs.running_startPerm m d _).runSteps_complete rfl hes hleft
  exact ⟨t, (runSteps_step (hs.stepIn_permCommand hhost)).trans hrun, hbusy, hdone, hlast,
    hlanes.trans (modePerm_eq_permFrom m s.lanes).symm, hrest, hfault⟩

/-- Settles O24: the answer is the status word, whose bits the layout of 10_state.md R19 fixes. -/
theorem statusRdReads : Obligations.StatusRdReads :=
  fun _ hseen =>
    ⟨_, _, exec_statusRd_reset hseen, rfl, statusWord_busy .., statusWord_done .., statusWord_lastMode .., statusWord_err ..,
      statusWord_errcode .., statusWord_reserved .., rfl⟩

/-- Settles O43: the slot is the sequencer's, and the fields of its step are as stated. -/
theorem sequencerStep : Obligations.SequencerStep := by
  intro v s es hgo hbusy hquiet
  refine ⟨_, stepIn_quietNext hgo hbusy hquiet, by simp, fun hlast => ⟨by simp [hlast], by simp [hlast], ?_⟩,
    fun hmore => ⟨by simp [hbusy, hmore], by simp [hmore], ?_⟩, by simp, by simp, by simp, by simp, by simp, by simp, by simp,
    by simp, by simp, by simp⟩
  · exact State.seqStep_ridx_last (s := s.withHost es) hlast
  · exact State.seqStep_ridx_val (s := s.withHost es) (by simp; omega)

/-- Settles O23: each PERM is accepted by an idle block. -/
theorem permStarts : Obligations.PermStarts :=
  fun _ hseen hidle =>
    ⟨⟨_, exec_permCommand_idle hseen hidle .full, rfl, rfl, rfl, rfl, rfl, rfl, rfl, rfl, rfl, hseen, rfl⟩,
      ⟨_, exec_permCommand_idle hseen hidle .half, rfl, rfl, rfl, rfl, rfl, rfl, rfl, rfl, rfl, hseen, rfl⟩⟩

/-- Settles O40: the first 12 of rounds 0..23, and then Perm from round 12. -/
theorem composition : Obligations.Composition :=
  fun A => (permFrom_runRounds A 0 12).symm

end Sys2Proof.Safety

/-! PROOFS. The statements about 60_exceptions.md: what a rejected and an accepted command do to the error record, the order of the
causes of a rejection, a run that has stopped, loss of power, an idle block, and several blocks side by side. -/

namespace Sys2Proof

/-! ## The opcode of an encoded command -/

@[simp] theorem opcode_encodeLane (o : BitVec 8) (x y : BitVec 3) : opcode (encodeLane o x y) = o :=
  (eq_encodeLane_iff.1 rfl).1

@[simp] theorem opcode_encodeByte (o ofs d : BitVec 8) : opcode (encodeByte o ofs d) = o :=
  (eq_encodeByte_iff.1 rfl).1

end Sys2Proof

namespace Sys2Proof.Machine

variable {s t : State}

/-! ## A rejected command -/

/-- An operand out of range is rejected before BUSY is looked at (60_exceptions.md R97). -/
theorem exec_lane_outOfRange {x y : BitVec 3} (hseen : s.resetSeen = true) (h : 4 < x.toNat ∨ 4 < y.toNat) :
    exec (.laneWr x y) s = .next (s.reject false .laneRange) ∧ exec (.laneRd x y) s = .next (s.reject true .laneRange) := by
  rw [exec_laneWr, exec_laneRd, laneOperand_error h]
  exact ⟨runCommand_range hseen, runCommand_range hseen⟩

theorem exec_byte_outOfRange {o : BitVec 8} (d : BitVec 8) (hseen : s.resetSeen = true) (h : 199 < o.toNat) :
    exec (.byteWr o d) s = .next (s.reject false .byteRange) ∧ exec (.byteRd o) s = .next (s.reject true .byteRange) := by
  rw [exec_byteWr, exec_byteRd, byteOperand_error h]
  exact ⟨runCommand_range hseen, runCommand_range hseen⟩

theorem laneOperand_of_coordOk {x y : BitVec 3} (h : (coordOk x && coordOk y) = true) : ∃ p, laneOperand x y = .ok p := by
  cases hp : laneOperand x y with
  | ok p => exact ⟨p, rfl⟩
  | error e => simp [laneOperand_error_iff hp] at h

theorem byteOperand_of_offsetOk {o : BitVec 8} (h : offsetOk o = true) : ∃ k, byteOperand o = .ok k := by
  cases hk : byteOperand o with
  | ok k => exact ⟨k, rfl⟩
  | error e => simp [byteOperand_error_iff hk] at h

/-- A busy block rejects every well-formed command but STATUS.RD (70_reset_and_hazards.md R113), as a read exactly when the
command's word has a read's opcode. -/
theorem exec_busy {i : Instr} (hseen : s.resetSeen = true) (hbusy : s.busy = true) (hwf : i.wellFormed = true)
    (hne : i ≠ .statusRd) : exec i s = .next (s.reject (isReadOpcode (encode i)) .busyHazard) := by
  cases i with
  | laneWr x y =>
    obtain ⟨p, hp⟩ := laneOperand_of_coordOk hwf
    rw [exec_laneWr, hp, runCommand_busy hseen hbusy rfl]
    simp [isReadOpcode, encode, CommandClass.isRead]
  | laneRd x y =>
    obtain ⟨p, hp⟩ := laneOperand_of_coordOk hwf
    rw [exec_laneRd, hp, runCommand_busy hseen hbusy rfl]
    simp [isReadOpcode, encode, CommandClass.isRead]
  | byteWr o d =>
    obtain ⟨k, hk⟩ := byteOperand_of_offsetOk hwf
    rw [exec_byteWr, hk, runCommand_busy hseen hbusy rfl]
    simp [isReadOpcode, encode, CommandClass.isRead]
  | byteRd o =>
    obtain ⟨k, hk⟩ := byteOperand_of_offsetOk hwf
    rw [exec_byteRd, hk, runCommand_busy hseen hbusy rfl]
    simp [isReadOpcode, encode, CommandClass.isRead]
  | permFull => rw [exec_permFull, runCommand_busy hseen hbusy rfl]; rfl
  | permHalf => rw [exec_permHalf, runCommand_busy hseen hbusy rfl]; rfl
  | statusRd => exact absurd rfl hne

/-- A command that there is a reason to reject is rejected for that reason (60_exceptions.md R95), as a read exactly when its word
has a read's opcode. -/
theorem issueCommand_of_rejection {c : Command} {e : ErrCode} (hseen : s.resetSeen = true)
    (hrej : Safety.rejection s c = some e) :
    issueCommand c s = .next ((s.withDin c.din).reject (isReadOpcode c.word) e) := by
  cases hd : decode c.word with
  | error e' =>
    obtain rfl : e' = e := by simpa [Safety.rejection, hd] using hrej
    simp [issueCommand, hd, rejectWord, hseen]
  | ok i =>
    obtain ⟨⟨hbusy, hne⟩, rfl⟩ : (s.busy = true ∧ i ≠ .statusRd) ∧ ErrCode.busyHazard = e := by
      simpa [Safety.rejection, hd] using hrej
    rw [issueCommand_of_decode_ok hd, eq_encode_of_decode hd]
    exact exec_busy hseen hbusy (decode_wellFormed hd) hne

/-- A command that there is no reason to reject takes effect. -/
theorem issueCommand_accepted {c : Command} (hseen : s.resetSeen = true) (hrej : Safety.rejection s c = none) :
    ∃ i t, issueCommand c s = .next t ∧ Effect (s.withDin c.din) i t := by
  rcases issueCommand_cases c s with ⟨hunseen, _⟩ | ⟨_, r, e, hcause, _⟩ | ⟨_, i, t, _, heffect, ht⟩
  · simp [hseen] at hunseen
  · simp [Safety.rejection_of_portCause hcause] at hrej
  · exact ⟨i, t, ht, heffect⟩

/-- No command has a meaning before the first reset (70_reset_and_hazards.md R110). -/
theorem issueCommand_before_reset (c : Command) (h : s.resetSeen = false) : issueCommand c s = .refused .beforeReset := by
  rcases issueCommand_cases c s with ⟨_, hrefused⟩ | ⟨hseen, _⟩ | ⟨hseen, _⟩
  · exact hrefused
  all_goals simp [h] at hseen

theorem State.reject_rdata_of_read (s : State) (e : ErrCode) : (s.reject true e).rdata = some 0 := rfl

/-! ## A run that has stopped -/

/-- No case of a step clears or replaces a recorded rejection (60_exceptions.md R96). -/
theorem StepTo.keeps_fault {e : ErrCode} (h : StepTo s t) (hf : s.fault = some e) : t.fault = some e := by
  cases h with
  | seq es _ _ => simpa using hf
  | idle es _ _ => exact hf
  | rejected es c r e' _ _ _ => simp [hf]
  | performed es c i _ _ _ _ effect =>
    obtain ⟨_, _, hfault⟩ := effect.keeps_errors
    exact hfault.trans hf
  | reset es lost _ => exact hf
  | power es _ => exact hf

/-- The machine's run stops at the rejection on record (60_exceptions.md R96), unless a reset comes next (R107). -/
theorem step_of_fault {e : ErrCode} (hf : s.fault = some e) (hnext : resetNext s = false) :
    step s = .fault (.rejected e) := by
  simp [step, stepIn, stoppedBy, hnext, hf]

theorem resetNext_of_not_reset (h : ∀ lost es, s.host ≠ .reset lost :: es) : resetNext s = false := by
  unfold resetNext
  split
  · next lost es hhost => exact absurd hhost (h lost es)
  · rfl

/-! ## Several blocks -/

/-- A step of a system is a step of one of its blocks, put back in that block's place (60_exceptions.md R104). -/
theorem System.step_inv {sys sys' : System} {k : Nat} (h : System.step sys k = .next sys') :
    ∃ b t, sys[k]? = some b ∧ Machine.step b.block = .next t ∧ sys' = sys.set k { b with block := t } := by
  unfold System.step at h
  split at h
  · cases h
  · next b hb =>
    split at h
    · next t ht => cases h; exact ⟨b, t, hb, ht, rfl⟩
    all_goals cases h

end Sys2Proof.Machine

namespace Sys2Proof.Safety

open Sys2Proof.Machine

/-- Settles O15: the port rejects the command, a rejection writes the error record and the response port only, and the record
stops the machine's next step. -/
theorem rejectionIsPrecise : Obligations.RejectionIsPrecise := by
  intro v s c es e hgo hseen hhost hrej
  have hstep : stepIn v s = .next (((s.withHost es).withDin c.din).reject (isReadOpcode c.word) e) :=
    (stepIn_issue hgo hhost).trans (issueCommand_of_rejection (s := s.withHost es) hseen hrej)
  refine ⟨_, hstep, rfl, rfl, rfl, rfl, rfl, rfl, rfl, fun h => by simp [h], fun h => by simp [h], fun h => by simp [h],
    fun h => ?_, by simp, hseen, rfl, fun _ hread => ?_, fun hv hnext => ?_⟩
  · obtain ⟨e', hf⟩ := Option.ne_none_iff_exists'.1 h
    simp [hf]
  · rw [hread, State.reject_rdata_of_read]
  · have hclear : s.fault = none := hgo.resolve_left (by simp [hv])
    exact step_of_fault (by simp [hclear]) hnext

/-- Settles O16: the command takes effect, and no command's effect touches the error record. -/
theorem acceptedLeavesErrors : Obligations.AcceptedLeavesErrors := by
  intro v s c es hgo hseen hhost hrej
  obtain ⟨i, t, ht, heffect⟩ := issueCommand_accepted (s := s.withHost es) hseen hrej
  obtain ⟨herr, hcode, hfault⟩ := heffect.keeps_errors
  obtain ⟨_, _, hrest, _⟩ := heffect.keeps_ports
  exact ⟨t, (stepIn_issue hgo hhost).trans ht, herr, hcode, hfault, hrest⟩

/-- Settles O18: the operand's error is found whether or not the block is busy. -/
theorem rangeBeforeBusy : Obligations.RangeBeforeBusy := by
  refine fun s hseen herr => ⟨fun x y hrange => ?_, fun o d hrange => ?_⟩
  · obtain ⟨hwrite, hread⟩ := exec_lane_outOfRange hseen hrange
    exact ⟨_, _, hwrite, hread, by simp [herr, errorCode], by simp [herr, errorCode], rfl, rfl⟩
  · obtain ⟨hwrite, hread⟩ := exec_byte_outOfRange d hseen hrange
    exact ⟨_, _, hwrite, hread, by simp [herr, errorCode], by simp [herr, errorCode], rfl, rfl⟩

/-- Settles O49: every case of a step keeps the record, the machine stops at it, and a final state has none. -/
theorem faultNeverCleared : Obligations.FaultNeverCleared := by
  refine ⟨fun v s t e hf hstep => (stepIn_inv hstep).keeps_fault hf,
    fun s e hf hreset => step_of_fault hf (resetNext_of_not_reset hreset), fun s e hf hfinal => ?_⟩
  obtain ⟨_, _, hclear⟩ : s.host = [] ∧ s.busy = false ∧ s.fault = none := hfinal
  simp [hf] at hclear

/-- Settles O57: a step of a system writes one place of the list, and a drive asks for the owner first. -/
theorem blocksShareNothing : Obligations.BlocksShareNothing := by
  refine ⟨fun sys sys' k hstep => ?_, fun sys h k b e hb howner => by simp [System.drive, hb, howner]⟩
  obtain ⟨b, t, hb, ht, rfl⟩ := System.step_inv hstep
  refine ⟨fun j hj => List.getElem?_set_ne hj.symm, b, t, hb, ht, ?_⟩
  obtain ⟨hk, _⟩ := List.getElem?_eq_some_iff.1 hb
  exact List.getElem?_set_self hk

/-- Settles O5: a loss of power clears the reset record and keeps the fault record, so that the run goes on and refuses. -/
theorem powerLossNeedsReset : Obligations.PowerLossNeedsReset := by
  intro v s es hgo hhost
  refine ⟨(s.withHost es).applyPowerLoss, by rw [stepIn_going hgo, slot_cons hhost]; rfl, rfl, rfl, rfl, fun c es' => ?_⟩
  rw [stepIn_issue (s := (s.withHost es).applyPowerLoss.withHost (.issue c :: es')) hgo rfl]
  exact issueCommand_before_reset c rfl

/-- Settles O6: a quiet slot of an idle block holds it. -/
theorem idleHolds : Obligations.IdleHolds := by
  refine fun v s hgo hidle => ⟨fun hhost => ?_, fun es hhost => ?_⟩
  · rw [stepIn_going hgo, slot_nil hhost, quietSlot_of_idle hidle]
  · rw [stepIn_going hgo, slot_cons hhost]
    exact congrArg _ (quietSlot_of_idle (s := s.withHost es) hidle)

end Sys2Proof.Safety

/-! PROOFS. The statements about 70_reset_and_hazards.md: the reset transition, commands before the first reset, and the busy
hazard. -/

namespace Sys2Proof.Machine

/-- No command has a meaning before the first reset (70_reset_and_hazards.md R110). -/
theorem exec_before_reset {s : State} (i : Instr) (h : s.resetSeen = false) : exec i s = .refused .beforeReset := by
  rcases exec_cases i s with ⟨_, hrefused⟩ | ⟨hseen, _⟩ | ⟨hseen, _⟩
  · exact hrefused
  all_goals simp [h] at hseen

end Sys2Proof.Machine

namespace Sys2Proof.Safety

open Sys2Proof.Machine

/-- Settles O17: a busy block rejects the command with the busy hazard, and a rejection writes the error record and the response
port only. -/
theorem busyHazard : Obligations.BusyHazard := by
  intro i s hseen hbusy hwf hne
  exact ⟨_, exec_busy hseen hbusy hwf hne, rfl, hbusy, rfl, rfl, rfl, rfl, rfl, fun h => by simp [h, errorCode],
    fun h => by simp [h], by simp⟩

/-- Settles O2: a reset is taken in every state and leaves the reset values, the fault record and the host's further events; the
block is then idle, and a quiet slot holds it. -/
theorem resetTransition : Obligations.ResetTransition := by
  intro v s lost es hhost
  obtain ⟨hlanes, hbusy, hdone, hlast, herr, hcode, _, hseen, _⟩ := resetValues
  refine ⟨(s.withHost es).applyReset, stepIn_reset hhost, hlanes, hbusy, hdone, hlast, herr, hcode, hseen, rfl, rfl,
    fun es' hgo => ?_⟩
  obtain ⟨_, hquiet⟩ := idleHolds v ((s.withHost es).applyReset.withHost (.quiet :: es')) hgo hbusy
  exact hquiet es' rfl

/-- Settles O3: no command has a meaning before the first reset, whether it is executed or arrives as a word on the port. -/
theorem beforeResetRefused : Obligations.BeforeResetRefused := by
  refine fun s hunseen => ⟨fun i => exec_before_reset i hunseen, fun v c es hgo hhost => ?_⟩
  rw [stepIn_issue hgo hhost]
  exact issueCommand_before_reset c hunseen

end Sys2Proof.Safety
